-- ==== Sys2Proof/Word.lean ====
section
/-! DEFINITION. The words of the block that are bit vectors. Data values (polynomials, states, operands,
response data) are natural numbers, as the spec says they are (00_scope.md R6), and need no type of their own. -/

namespace Sys2Proof

/-- A command word: one length, 8 bits (30_encoding.md R71). -/
abbrev CmdWord := BitVec 8

/-- The status of a response: 4 bits (30_encoding.md R74). -/
abbrev StatusCode := BitVec 4

end Sys2Proof
end

