-- ==== Sys2Proof/Syntax.lean ====
section
/-! DEFINITION. The commands of the block and the command channel they arrive on. -/

namespace Sys2Proof

/-- The twelve commands (30_encoding.md R76), each with the operands that rule R73 says it reads. An operand the
command ignores (a dash in R73) is no argument, so that no meaning can look at it (R80). -/
inductive Instr where
  | loadF (p s0 : Nat)      -- LOAD.F, construct a Fibonacci register
  | loadG (p s0 : Nat)      -- LOAD.G, construct a Galois register
  | rdstate                 -- RDSTATE, read the whole state
  | rdorder                 -- RDORDER, read the field order
  | rdpoly                  -- RDPOLY, read the polynomial word
  | rdbit (idx : Nat)       -- RDBIT, read one bit of the state
  | wrbit (idx v : Nat)     -- WRBIT, write one bit of the state
  | round                   -- ROUND, one round
  | adv (c : Nat)           -- ADV, c rounds
  | table                   -- TABLE, compute the state table
  | tlen                    -- TLEN, read the length of the table
  | tblrd (k : Nat)         -- TBLRD, read one entry of the table
deriving DecidableEq, Repr

/-- What the command channel carries: the command word and the two operands (30_encoding.md R70, R72). -/
structure Command where
  cmd : CmdWord
  a : Nat
  b : Nat
deriving DecidableEq, Repr

end Sys2Proof
end

