-- ==== Sys2Proof/Decode.lean ====
section
/-! DEFINITION. The decoder of 30_encoding.md R77, total on every command word, and the encoder written from the
same table (R71, R76). -/

namespace Sys2Proof

/-- Why a command word is no command: the three ways of 30_encoding.md R79. All of them end in the one error
IllegalCommand (60_exceptions.md R190). -/
inductive IllegalWord where
  | upperBitsSet      -- cmd[7:5] is not 000
  | topologyBitSet    -- cmd[4] is 1 and the op is not LOAD
  | noSuchOp          -- op 0000 or 1100 to 1111
deriving DecidableEq, Repr

/-- The outcome of decoding. -/
inductive Decoded where
  | instr (i : Instr)
  | illegal (why : IllegalWord)
deriving DecidableEq, Repr

/-- The command decoded, if there is one. -/
def Decoded.instr? : Decoded → Option Instr
  | .instr i => some i
  | .illegal _ => none

/-- Field `z`, bits 7:5 (30_encoding.md R71). -/
def zField (w : CmdWord) : BitVec 3 := w.extractLsb' 5 3

/-- Field `t`, bit 4 (30_encoding.md R71). -/
def tField (w : CmdWord) : Bool := w.getLsbD 4

/-- Field `op`, bits 3:0 (30_encoding.md R71). -/
def opField (w : CmdWord) : BitVec 4 := w.extractLsb' 0 4

/-- Decoding, test by test as 30_encoding.md R77 gives it. Whether a word is a command depends on the word alone. -/
def decode (c : Command) : Decoded :=
  if zField c.cmd ≠ 0#3 then .illegal .upperBitsSet
  else if opField c.cmd = 0b0001#4 then
    if tField c.cmd then .instr (.loadG c.a c.b) else .instr (.loadF c.a c.b)
  else if tField c.cmd then .illegal .topologyBitSet
  else if opField c.cmd = 0b0010#4 then .instr .rdstate
  else if opField c.cmd = 0b0011#4 then .instr .rdorder
  else if opField c.cmd = 0b0100#4 then .instr .rdpoly
  else if opField c.cmd = 0b0101#4 then .instr (.rdbit c.a)
  else if opField c.cmd = 0b0110#4 then .instr (.wrbit c.a c.b)
  else if opField c.cmd = 0b0111#4 then .instr .round
  else if opField c.cmd = 0b1000#4 then .instr (.adv c.a)
  else if opField c.cmd = 0b1001#4 then .instr .table
  else if opField c.cmd = 0b1010#4 then .instr .tlen
  else if opField c.cmd = 0b1011#4 then .instr (.tblrd c.a)
  else .illegal .noSuchOp

/-- A command word from its fields: `cmd = z * 32 + t * 16 + op` with `z = 0` (30_encoding.md R71). -/
def mkWord (t : Bool) (op : BitVec 4) : CmdWord := 0b000#3 ++ (BitVec.ofBool t ++ op)

/-- The command word of each command (30_encoding.md R76, columns `t` and `op`). -/
def Instr.word : Instr → CmdWord
  | .loadF _ _ => mkWord false 0b0001#4
  | .loadG _ _ => mkWord true 0b0001#4
  | .rdstate => mkWord false 0b0010#4
  | .rdorder => mkWord false 0b0011#4
  | .rdpoly => mkWord false 0b0100#4
  | .rdbit _ => mkWord false 0b0101#4
  | .wrbit _ _ => mkWord false 0b0110#4
  | .round => mkWord false 0b0111#4
  | .adv _ => mkWord false 0b1000#4
  | .table => mkWord false 0b1001#4
  | .tlen => mkWord false 0b1010#4
  | .tblrd _ => mkWord false 0b1011#4

/-- What each command puts on port `a`; an ignored operand is assembled as 0 (30_encoding.md R73, R82). -/
def Instr.portA : Instr → Nat
  | .loadF p _ => p
  | .loadG p _ => p
  | .rdstate => 0
  | .rdorder => 0
  | .rdpoly => 0
  | .rdbit idx => idx
  | .wrbit idx _ => idx
  | .round => 0
  | .adv c => c
  | .table => 0
  | .tlen => 0
  | .tblrd k => k

/-- What each command puts on port `b`; an ignored operand is assembled as 0 (30_encoding.md R73, R82). -/
def Instr.portB : Instr → Nat
  | .loadF _ s0 => s0
  | .loadG _ s0 => s0
  | .rdstate => 0
  | .rdorder => 0
  | .rdpoly => 0
  | .rdbit _ => 0
  | .wrbit _ v => v
  | .round => 0
  | .adv _ => 0
  | .table => 0
  | .tlen => 0
  | .tblrd _ => 0

/-- Whether the command reads port `a`: no dash in column `a` of 30_encoding.md R73. -/
def Instr.readsA : Instr → Bool
  | .loadF _ _ => true
  | .loadG _ _ => true
  | .rdstate => false
  | .rdorder => false
  | .rdpoly => false
  | .rdbit _ => true
  | .wrbit _ _ => true
  | .round => false
  | .adv _ => true
  | .table => false
  | .tlen => false
  | .tblrd _ => true

/-- Whether the command reads port `b`: no dash in column `b` of 30_encoding.md R73. -/
def Instr.readsB : Instr → Bool
  | .loadF _ _ => true
  | .loadG _ _ => true
  | .rdstate => false
  | .rdorder => false
  | .rdpoly => false
  | .rdbit _ => false
  | .wrbit _ _ => true
  | .round => false
  | .adv _ => false
  | .table => false
  | .tlen => false
  | .tblrd _ => false

/-- The triple (`cmd`, `a`, `b`) a host presents for a command (30_encoding.md R82). -/
def encode (i : Instr) : Command := ⟨i.word, i.portA, i.portB⟩

/-- The command a host presents when it puts the `nbits` low bits of `w` on the command word and nothing on the
operand ports: the operands travel beside the word and the opcode table gives them no bits (30_encoding.md R71), so
they are 0. -/
def tableCommand (nbits w : Nat) : Command := ⟨BitVec.ofNat 8 (w % 2 ^ nbits), 0, 0⟩

/-- The instruction the decoder reads from a row of the opcode table. -/
def decodeTableWord (nbits w : Nat) : Option Instr := (decode (tableCommand nbits w)).instr?

end Sys2Proof
end

