-- ==== Sys2Proof/Machine/State.lean ====
section
/-! DEFINITION. The state of one block instance (10_state.md R20) with the two channels to its host, the reasons
a step can stop, and the state after reset. -/

namespace Sys2Proof.Machine

/-- The topology select (10_state.md R24). -/
inductive Topology where
  | fibonacci
  | galois
deriving DecidableEq, Repr

/-- The nine error conditions (60_exceptions.md R180), in the order of their codes (30_encoding.md R75). -/
inductive ErrorCode where
  | invalidPolynomial
  | invalidState
  | indexOutOfRange
  | invalidBitValue
  | cycleNotFound
  | notConstructed
  | illegalCommand
  | noTable
  | tableIndexOutOfRange
deriving DecidableEq, Repr

/-- A response: "seen abstractly a response is either Ok(data) or Err(code)" (30_encoding.md R74). -/
inductive Response where
  | ok (data : Nat)
  | err (e : ErrorCode)
deriving DecidableEq, Repr

/-- One thing the outside world does to the block: "Reset is the only input besides commands" (70_reset_and_hazards.md
R210). -/
inductive Input where
  | command (c : Command)       -- the host issues a command and waits for its response
  | reset                       -- `rst` is asserted while no command is being performed (R210)
  | resetDuring (c : Command)   -- `rst` is asserted between the acceptance of `c` and its response (R213)
deriving DecidableEq, Repr

/-- Why a step can stop the machine. No error of the spec does: each is a response and the block goes on. -/
inductive Fault where
  /-- Raised by TBLRD when `tlen` counts more entries than the table buffer holds and the entry read is one of the
  missing ones. No run reaches such a state (the memory keeps its canonical form); safe: the model stops where the
  spec gives no value (20_memory.md R51, log entry 4). -/
  | tableEntryAbsent
deriving DecidableEq, Repr

/-- Why a step can refuse. -/
inductive Refusal where
  /-- Raised by an arm of exec whose instruction has no meaning yet; safe. No arm does: all twelve have theirs. -/
  | notModelled (mnemonic : String)
deriving DecidableEq, Repr

/-- The architectural state (10_state.md R20), field by field, and the model's two channel fields (log entry 3). -/
structure State where
  /-- 1 when a register has been constructed since reset (R25). -/
  valid : Bool
  /-- Which round function the instance uses (R24). -/
  topo : Topology
  /-- The characteristic polynomial (R22). -/
  poly : Nat
  /-- The field order `n` (R23). -/
  order : Nat
  /-- The register contents, FF0 to FF`n-1` (R21). -/
  state : Nat
  /-- 1 when the table buffer holds a state table of this instance (R26). -/
  tvalid : Bool
  /-- Number of entries of the table in the buffer (R26). -/
  tlen : Nat
  /-- The table buffer: `TBL[k]` is the element at position `k` (R26, 20_memory.md R51). -/
  tbl : List Nat
  /-- MODEL'S OWN: what the host will do next, oldest first. -/
  inputs : List Input
  /-- MODEL'S OWN: the responses given so far, oldest first; what a host observes (60_exceptions.md R198). -/
  resps : List Response
deriving DecidableEq, Repr

/-- The state after reset (10_state.md R35): `valid` and `tvalid` are 0. The spec gives no value to the six other
registers; DESIGN CHOICE (log entry 2): zero, and the empty table. No input is pending and no response was given
(log entry 3). -/
def State.reset : State where
  valid := false
  topo := .fibonacci
  poly := 0
  order := 0
  state := 0
  tvalid := false
  tlen := 0
  tbl := []
  inputs := []
  resps := []

end Sys2Proof.Machine
end

