-- ==== Sys2Proof/Machine/Flags.lean ====
section
/-! DEFINITION. The block's two flags, `valid` and `tvalid` (10_state.md R29), and the two wires of a response. -/

namespace Sys2Proof.Machine

/-- The flags after a successful construction: `valid` 1, `tvalid` 0 (10_state.md R25, R26). -/
def State.flagsConstructed (s : State) : State := { s with valid := true, tvalid := false }

/-- The flags after a successful TABLE: `tvalid` 1 (10_state.md R26). -/
def State.flagsTable (s : State) : State := { s with tvalid := true }

/-- The bit of the command word that selects a topology: 0 Fibonacci, 1 Galois (10_state.md R24). -/
def Topology.bit : Topology → Bool
  | .fibonacci => false
  | .galois => true

/-- The code of each error (30_encoding.md R75). -/
def ErrorCode.code : ErrorCode → StatusCode
  | .invalidPolynomial => 1#4
  | .invalidState => 2#4
  | .indexOutOfRange => 3#4
  | .invalidBitValue => 4#4
  | .cycleNotFound => 5#4
  | .notConstructed => 6#4
  | .illegalCommand => 7#4
  | .noTable => 8#4
  | .tableIndexOutOfRange => 9#4

/-- The wire `status`: 0 (OK) on success, the error's code otherwise (30_encoding.md R74). -/
def Response.status : Response → StatusCode
  | .ok _ => 0#4
  | .err e => e.code

/-- The wire `data`: the result on success, 0 on every error (30_encoding.md R74). -/
def Response.data : Response → Nat
  | .ok d => d
  | .err _ => 0

end Sys2Proof.Machine
end

