-- ==== Sys2Proof/Machine/Operands.lean ====
section
/-! DEFINITION. The pure helper functions of 00_scope.md R8, on natural numbers (R6). -/

namespace Sys2Proof.Machine

/-- Bit `i` of `v`, 0 or 1: `floor(v / 2^i) mod 2` (00_scope.md R8 (a)). -/
def bit (v i : Nat) : Nat := v / 2 ^ i % 2

/-- The XOR of bits 0 to `k - 1` of `v`. -/
def parityBelow : Nat → Nat → Nat
  | 0, _ => 0
  | k + 1, v => bit v k ^^^ parityBelow k v

/-- The XOR of all bits of `v`, with `parity 0 = 0` (00_scope.md R8 (b)). -/
def parity (v : Nat) : Nat := parityBelow (v.log2 + 1) v

/-- The position of the highest set bit; it fails for the polynomial 0, which has no degree (00_scope.md R8 (c),
40_construct_and_views.md R100). -/
def fieldOrder (p : Nat) : Option Nat := if p = 0 then none else some p.log2

/-- The polynomial with its degree bit cleared: `p mod 2^n` (00_scope.md R8 (d)). -/
def tapmask (n p : Nat) : Nat := p % 2 ^ n

/-- `v` with bit `i` replaced by `w` (00_scope.md R8 (e)). -/
def setbit (v i w : Nat) : Nat := v - bit v i * 2 ^ i + w * 2 ^ i

end Sys2Proof.Machine
end

