-- ==== Sys2Proof/Machine/Ops.lean ====
section
/-! DEFINITION. The named operations over the registers, the table buffer and the two channels. -/

namespace Sys2Proof.Machine

/-- What one command may answer. -/
abbrev Answer := Host.Outcome State Fault Refusal

/-! ## The response channel and the errors -/

/-- The block gives one response (30_encoding.md R70). -/
def State.respond (s : State) (r : Response) : State := { s with resps := s.resps ++ [r] }

/-- `return v`: the command ends with status OK and data `v` (00_scope.md R7). -/
def State.succeed (s : State) (data : Nat) : State := s.respond (.ok data)

/-- `raise E`: the command ends with error `E`; no register and no table entry is changed and the block is ready for
the next command (60_exceptions.md R184). This is the block's whole way of taking an exception: nothing is saved
and there is nothing to return from (R193). -/
def State.raise (s : State) (e : ErrorCode) : State := s.respond (.err e)

/-- The second check of every command but LOAD.F and LOAD.G: NotConstructed while `valid = 0` (60_exceptions.md
R186, R192). -/
def whenConstructed (s : State) (k : Answer) : Answer :=
  if s.valid then k else .next (s.raise .notConstructed)

/-- The first check of TLEN and TBLRD: NoTable while `tvalid = 0` (60_exceptions.md R188). -/
def whenTable (s : State) (k : Answer) : Answer :=
  if s.tvalid then k else .next (s.raise .noTable)

/-! ## The registers -/

/-- `state <- v`. -/
def State.writeState (s : State) (v : Nat) : State := { s with state := v }

/-- The six writes of a successful construction, all together (40_construct_and_views.md R101, R102). The table
buffer is not written, only disowned (10_state.md R20, R26). -/
def State.construct (s : State) (t : Topology) (p n s0 : Nat) : State :=
  { s.flagsConstructed with topo := t, poly := p, order := n, state := s0 }

/-- Construction with the two checks that precede it, InvalidPolynomial before InvalidState (40_construct_and_views.md
R101, R102). -/
def loadRegister (t : Topology) (p s0 : Nat) (s : State) : Answer :=
  match fieldOrder p with
  | none => .next (s.raise .invalidPolynomial)
  | some n =>
    if 2 ^ n ≤ s0 then .next (s.raise .invalidState)
    else .next ((s.construct t p n s0).succeed 0)

/-! ## The table space -/

/-- `MemRead(k, 1)`: entry `k` of the table buffer; entries at `k >= tlen` do not exist (20_memory.md R51). -/
def State.memRead (s : State) (k : Nat) : Option Nat := if k < s.tlen then s.tbl[k]? else none

/-- What a successful TABLE writes: every entry, the length and the flag, as one indivisible update
(43_state_table_engine.md R140, R141). Entries of an older table cease to exist. -/
def State.writeTable (s : State) (entries : List Nat) : State :=
  { s.flagsTable with tbl := entries, tlen := entries.length }

/-- The canonical form of the table buffer: it lists exactly the `tlen` entries that exist, so equal tables are equal
data (20_memory.md R51, log entry 4). -/
def Memory.wf (s : State) : Bool := s.tbl.length == s.tlen

/-! ## The command channel and reset -/

/-- The reset event (70_reset_and_hazards.md R210): the registers go to the values of `State.reset`. The inputs still to come
and the responses already given are the host's and stay (log entry 6). -/
def State.takeReset (s : State) : State :=
  { State.reset with inputs := s.inputs, resps := s.resps }

/-- The inputs still to come. -/
def State.withInputs (s : State) (rest : List Input) : State := { s with inputs := rest }

/-- The host presents `c` as the block's next command. -/
def State.placeCommand (s : State) (c : Command) : State := s.withInputs (.command c :: s.inputs)

/-- What the next input asks of the block. -/
inductive Event where
  | idle                 -- no input is pending
  | reset                -- `rst`, with or without a command in progress
  | illegal              -- the command word is no command
  | run (i : Instr)      -- a command
deriving DecidableEq, Repr

/-- Take the next input: inputs are performed one by one in the order the host issues them (20_memory.md R57), and
decoding is the first check (60_exceptions.md R192). A reset while a command is being performed abandons the command:
it has no effect and gets no response (70_reset_and_hazards.md R213). -/
def State.takeInput (s : State) : Event × State :=
  match s.inputs with
  | [] => (.idle, s)
  | .reset :: rest => (.reset, s.withInputs rest)
  | .resetDuring _ :: rest => (.reset, s.withInputs rest)
  | .command c :: rest =>
    match decode c with
    | .instr i => (.run i, s.withInputs rest)
    | .illegal _ => (.illegal, s.withInputs rest)

end Sys2Proof.Machine
end

