-- ==== Sys2Proof/Machine/Rounds.lean ====
section
/-! DEFINITION. The two combinational units: LFSR_fibonacci_round (44_fibonacci_round.md) and LFSR_galois_round
(45_galois_round.md), their selection by `topo` and their repetition. -/

namespace Sys2Proof.Machine

/-- `fib_round(n, p, s)`: shift right by one and insert the XOR of the tapped bits at the top (44_fibonacci_round.md
R160). -/
def fibRound (n p s : Nat) : Nat :=
  if n = 0 then 0
  else (s >>> 1) ||| (parity (s &&& tapmask n p) <<< (n - 1))

/-- `gal_round(n, p, s)`: shift right by one and XOR the tap mask when the bit shifted out is 1 (45_galois_round.md
R170). Not the textbook form (R172). -/
def galRound (n p s : Nat) : Nat :=
  if bit s 0 = 1 then (s >>> 1) ^^^ tapmask n p else s >>> 1

/-- `round_topo(n, p, s)` (42_round_and_advance.md R130). -/
def roundTopo (t : Topology) (n p s : Nat) : Nat :=
  match t with
  | .fibonacci => fibRound n p s
  | .galois => galRound n p s

/-- `c` rounds one after the other (42_round_and_advance.md R132). -/
def advance (t : Topology) (n p : Nat) : Nat → Nat → Nat
  | 0, s => s
  | c + 1, s => advance t n p c (roundTopo t n p s)

end Sys2Proof.Machine
end

