-- ==== Sys2Proof/Machine/Advance.lean ====
section
/-! DEFINITION. ROUND and ADV (42_round_and_advance.md). The table buffer does not follow the state
(70_reset_and_hazards.md R217). -/

namespace Sys2Proof.Machine

/-- ROUND, advance the state by one round and return the new state (42_round_and_advance.md R131). -/
def execRound (s : State) : Answer :=
  whenConstructed s <|
    let s' := roundTopo s.topo s.order s.poly s.state
    .next ((s.writeState s').succeed s')

/-- ADV, advance the state by `c` rounds and return the resulting state, as one command (42_round_and_advance.md R132). -/
def execAdv (c : Nat) (s : State) : Answer :=
  whenConstructed s <|
    let s' := advance s.topo s.order s.poly c s.state
    .next ((s.writeState s').succeed s')

end Sys2Proof.Machine
end

