-- ==== Sys2Proof/Machine/BitAccess.lean ====
section
/-! DEFINITION. RDBIT and WRBIT, bit-indexed access to the state (41_bit_access.md). -/

namespace Sys2Proof.Machine

/-- RDBIT, read one bit of the state (41_bit_access.md R120). -/
def execRdbit (idx : Nat) (s : State) : Answer :=
  whenConstructed s <|
    if s.order ≤ idx then .next (s.raise .indexOutOfRange)
    else .next (s.succeed (bit s.state idx))

/-- WRBIT, write one bit of the state; the index is checked before the value (41_bit_access.md R121). -/
def execWrbit (idx v : Nat) (s : State) : Answer :=
  whenConstructed s <|
    if s.order ≤ idx then .next (s.raise .indexOutOfRange)
    else if 2 ≤ v then .next (s.raise .invalidBitValue)
    else .next ((s.writeState (setbit s.state idx v)).succeed 0)

end Sys2Proof.Machine
end

