-- ==== Sys2Proof/Machine/Construct.lean ====
section
/-! DEFINITION. LOAD.F and LOAD.G, construction (40_construct_and_views.md section 2). They are the two commands accepted while
`valid = 0`. -/

namespace Sys2Proof.Machine

/-- LOAD.F, construct a Fibonacci register (40_construct_and_views.md R101, R103). -/
def execLoadF (p s0 : Nat) (s : State) : Answer := loadRegister .fibonacci p s0 s

/-- LOAD.G, construct a Galois register (40_construct_and_views.md R102, R103). -/
def execLoadG (p s0 : Nat) (s : State) : Answer := loadRegister .galois p s0 s

end Sys2Proof.Machine
end

