-- ==== Sys2Proof/Machine/Engine.lean ====
section
/-! DEFINITION. The unit LFSR_state_table_engine (43_state_table_engine.md). -/

namespace Sys2Proof.Machine

/-- The loop of 43_state_table_engine.md R145, with `seen` the spec's `rec` and the first argument the passes still
allowed, `2^n + 1 - iter`: none left is CycleNotFound (R147, log entry 7). `none` is that failure. -/
def tableLoop (t : Topology) (n p : Nat) : Nat → Nat → List Nat → Option (List Nat)
  | 0, _, _ => none
  | passes + 1, cur, seen =>
    let next := roundTopo t n p cur
    if seen.contains next then some seen
    else tableLoop t n p passes next (seen ++ [next])

/-- `state_table(n, p, s0)`: the start state is the first element, and up to `2^n + 1` rounds are done
(43_state_table_engine.md R145, R147). -/
def stateTable (t : Topology) (n p s0 : Nat) : Option (List Nat) :=
  tableLoop t n p (2 ^ n + 1) s0 [s0]

end Sys2Proof.Machine
end

