-- ==== Sys2Proof/Machine/Table.lean ====
section
/-! DEFINITION. TABLE, TLEN and TBLRD (43_state_table_engine.md section 3). -/

namespace Sys2Proof.Machine

/-- TABLE, compute the state table of the current state. It always computes, on a copy: neither the buffer nor the
register `state` takes part (43_state_table_engine.md R140, R146, R151). -/
def execTable (s : State) : Answer :=
  whenConstructed s <|
    match stateTable s.topo s.order s.poly s.state with
    | none => .next (s.raise .cycleNotFound)
    | some entries => .next ((s.writeTable entries).succeed entries.length)

/-- TLEN, read the length of the table in the buffer (43_state_table_engine.md R142). -/
def execTlen (s : State) : Answer :=
  whenConstructed s <| whenTable s <| .next (s.succeed s.tlen)

/-- TBLRD, read one entry of the table in the buffer (43_state_table_engine.md R143). -/
def execTblrd (k : Nat) (s : State) : Answer :=
  whenConstructed s <| whenTable s <|
    if s.tlen ≤ k then .next (s.raise .tableIndexOutOfRange)
    else
      match s.memRead k with
      | some v => .next (s.succeed v)
      | none => .fault .tableEntryAbsent

end Sys2Proof.Machine
end

