-- ==== Sys2Proof/Machine/Views.lean ====
section
/-! DEFINITION. RDSTATE, RDORDER and RDPOLY, the read-only views (40_construct_and_views.md section 3). -/

namespace Sys2Proof.Machine

/-- RDSTATE, read the whole state (40_construct_and_views.md R104). -/
def execRdstate (s : State) : Answer := whenConstructed s (.next (s.succeed s.state))

/-- RDORDER, read the field order (40_construct_and_views.md R105). -/
def execRdorder (s : State) : Answer := whenConstructed s (.next (s.succeed s.order))

/-- RDPOLY, read the polynomial word (40_construct_and_views.md R106). -/
def execRdpoly (s : State) : Answer := whenConstructed s (.next (s.succeed s.poly))

end Sys2Proof.Machine
end

