-- ==== Sys2Proof/Machine/Dispatch.lean ====
section
/-! DEFINITION. Which meaning each command has: one arm per constructor of Instr. -/

namespace Sys2Proof.Machine

def exec (i : Instr) (s : State) : Host.Outcome State Fault Refusal :=
  match i with
  | .loadF p s0 => Sys2Proof.Machine.execLoadF p s0 s
  | .loadG p s0 => Sys2Proof.Machine.execLoadG p s0 s
  | .rdstate => Sys2Proof.Machine.execRdstate s
  | .rdorder => Sys2Proof.Machine.execRdorder s
  | .rdpoly => Sys2Proof.Machine.execRdpoly s
  | .rdbit idx => Sys2Proof.Machine.execRdbit idx s
  | .wrbit idx v => Sys2Proof.Machine.execWrbit idx v s
  | .round => Sys2Proof.Machine.execRound s
  | .adv c => Sys2Proof.Machine.execAdv c s
  | .table => Sys2Proof.Machine.execTable s
  | .tlen => Sys2Proof.Machine.execTlen s
  | .tblrd k => Sys2Proof.Machine.execTblrd k s

end Sys2Proof.Machine
end

