-- ==== Sys2Proof/Machine/Step.lean ====
section
/-! DEFINITION. One step of the machine: one input, taken and performed as one indivisible transition (00_scope.md R11). -/

namespace Sys2Proof.Machine

/-- One step. With no input the block "holds its state and does nothing else" (60_exceptions.md R196, log entry 5). -/
def step (s : State) : Host.Outcome State Fault Refusal :=
  match s.takeInput with
  | (.idle, s') => .next s'
  | (.reset, s') => .next s'.takeReset
  | (.illegal, s') => .next (s'.raise .illegalCommand)
  | (.run i, s') => exec i s'

/-- The host presents, as the next input, the command whose word is the `nbits` low bits of `w`, with operands 0. -/
def State.withFetchWord (s : State) (nbits w : Nat) : State := s.placeCommand (tableCommand nbits w)

end Sys2Proof.Machine
end

