-- ==== Sys2Proof/Config.lean ====
section
/-! DEFINITION. What an implementation fixes: the largest field order NMAX and the widths it gives (00_scope.md
R5), and the one free value, on the host's side. No command's effect depends on either. -/

namespace Sys2Proof.Config

/-- The parameter NMAX, which the spec leaves open: "the value NMAX = ∞ (unbounded naturals) is allowed and is the
faithful reading of the original software" (00_scope.md R5). The machine itself runs with unbounded naturals (log
entry 1); a finite block is the machine on inputs that fit its ports. NMAX is "an integer, at least 1". -/
inductive NMax where
  | finite (n : Nat) (atLeastOne : 1 ≤ n)
  | unbounded
deriving DecidableEq, Repr

/-- A field order the block supports: `0..NMAX` (10_state.md R23). -/
def NMax.fitsOrder (m : NMax) (n : Nat) : Bool :=
  match m with
  | .finite k _ => decide (n ≤ k)
  | .unbounded => true

/-- A value that fits the NMAX bits of `state` (10_state.md R20). -/
def NMax.fitsState (m : NMax) (v : Nat) : Bool :=
  match m with
  | .finite k _ => decide (v < 2 ^ k)
  | .unbounded => true

/-- A value that fits the XW = NMAX + 1 bits of `poly`, of an operand and of the response data (00_scope.md R5). -/
def NMax.fitsPort (m : NMax) (v : Nat) : Bool :=
  match m with
  | .finite k _ => decide (v < 2 ^ (k + 1))
  | .unbounded => true

/-- A FREE VALUE (93_implementation_defined.md U9, log entry 8): the characters a host's renderer gives for the
polynomial 0, which no source defines. No command of the block reaches it. -/
opaque algebraicStringOfZero : List Char

end Sys2Proof.Config
end

