-- ==== Sys2Proof/WellFormed.lean ====
section
/-! DEFINITION. Which commands a host can present to a block of a given NMAX: the operands fit the XW-bit ports
(30_encoding.md R72). -/

namespace Sys2Proof

open Config

/-- Both operands fit the ports: `0 <= a, b < 2^XW` (30_encoding.md R72). -/
def Command.fits (m : NMax) (c : Command) : Bool := m.fitsPort c.a && m.fitsPort c.b

/-- The operands the command reads fit the ports. -/
def Instr.wellFormed (m : NMax) : Instr → Bool
  | .loadF p s0 => m.fitsPort p && m.fitsPort s0
  | .loadG p s0 => m.fitsPort p && m.fitsPort s0
  | .rdstate => true
  | .rdorder => true
  | .rdpoly => true
  | .rdbit idx => m.fitsPort idx
  | .wrbit idx v => m.fitsPort idx && m.fitsPort v
  | .round => true
  | .adv c => m.fitsPort c
  | .table => true
  | .tlen => true
  | .tblrd k => m.fitsPort k

end Sys2Proof
end

