-- ==== Sys2Proof/Safety.lean ====
section
/-! DEFINITION. What counts as a good state and as a good run, in the terms the claims use. -/

namespace Sys2Proof.Safety

open Sys2Proof.Machine

/-- 10_state.md R32 (a), (b), (c): while a register is constructed its polynomial is not 0, `order` is the position of
the polynomial's highest set bit, and `state` fits `order` bits. -/
def RegisterInv (s : State) : Prop :=
  s.valid = true →
    s.poly ≠ 0 ∧ 2 ^ s.order ≤ s.poly ∧ s.poly < 2 ^ (s.order + 1) ∧ s.state < 2 ^ s.order

/-- 10_state.md R32 (d) to (g): while the buffer holds a table, a register is constructed, the length is in range,
every entry fits `order` bits, the entries differ, each is the round of the one before and the round of the last is
among them. -/
def TableInv (s : State) : Prop :=
  s.tvalid = true →
    s.valid = true ∧ 1 ≤ s.tlen ∧ s.tlen ≤ 2 ^ s.order ∧
    (∀ x ∈ s.tbl, x < 2 ^ s.order) ∧ s.tbl.Nodup ∧
    (∀ k, k + 1 < s.tlen → s.memRead (k + 1) = (s.memRead k).map (roundTopo s.topo s.order s.poly)) ∧
    (∀ x, s.memRead (s.tlen - 1) = some x → roundTopo s.topo s.order s.poly x ∈ s.tbl)

/-- The state invariant: the table buffer in its canonical form and 10_state.md R32. -/
structure StateInv (s : State) : Prop where
  memory : Memory.wf s = true
  registers : RegisterInv s
  tables : TableInv s

/-- A block of the given NMAX can hold this state: every register that holds a value fits its width (10_state.md R20),
every input can be presented on the ports (30_encoding.md R72) and every response went out on the data port (R74). -/
structure Fits (m : Config.NMax) (s : State) : Prop where
  poly : s.valid = true → m.fitsPort s.poly = true
  order : s.valid = true → m.fitsOrder s.order = true
  state : s.valid = true → m.fitsState s.state = true
  tlen : s.tvalid = true → m.fitsPort s.tlen = true
  tbl : s.tvalid = true → ∀ x ∈ s.tbl, m.fitsState x = true
  inputs : ∀ c, Input.command c ∈ s.inputs ∨ Input.resetDuring c ∈ s.inputs → c.fits m = true
  resps : ∀ r ∈ s.resps, m.fitsPort r.data = true

/-- Two states a host cannot tell apart: they differ at most in registers that hold no value (10_state.md R35, R25,
R26), that is in `topo`, `poly`, `order` and `state` while `valid = 0` and in the table while `tvalid = 0`. -/
structure SameToHost (s t : State) : Prop where
  valid : t.valid = s.valid
  tvalid : t.tvalid = s.tvalid
  inputs : t.inputs = s.inputs
  resps : t.resps = s.resps
  registers : s.valid = true → t.topo = s.topo ∧ t.poly = s.poly ∧ t.order = s.order ∧ t.state = s.state
  tables : s.tvalid = true → t.tlen = s.tlen ∧ t.tbl = s.tbl

/-- The command ends with error `e`: the response says so and everything else is as before (60_exceptions.md R184). -/
def Raises (i : Instr) (s : State) (e : ErrorCode) : Prop :=
  exec i s = .next { s with resps := s.resps ++ [.err e] }

/-- Which command can raise which error: the crosses of 60_exceptions.md R199, row by row. -/
def canRaise : Instr → List ErrorCode
  | .loadF _ _ => [.invalidPolynomial, .invalidState]
  | .loadG _ _ => [.invalidPolynomial, .invalidState]
  | .rdstate => [.notConstructed]
  | .rdorder => [.notConstructed]
  | .rdpoly => [.notConstructed]
  | .rdbit _ => [.indexOutOfRange, .notConstructed]
  | .wrbit _ _ => [.indexOutOfRange, .invalidBitValue, .notConstructed]
  | .round => [.notConstructed]
  | .adv _ => [.notConstructed]
  | .table => [.cycleNotFound, .notConstructed]
  | .tlen => [.notConstructed, .noTable]
  | .tblrd _ => [.notConstructed, .noTable, .tableIndexOutOfRange]

/-- A construction, the only commands accepted while `valid = 0` (10_state.md R25). -/
def isLoad : Instr → Bool
  | .loadF _ _ => true
  | .loadG _ _ => true
  | .rdstate => false
  | .rdorder => false
  | .rdpoly => false
  | .rdbit _ => false
  | .wrbit _ _ => false
  | .round => false
  | .adv _ => false
  | .table => false
  | .tlen => false
  | .tblrd _ => false

/-- The commands with `state` in their write column besides construction: WRBIT, ROUND, ADV (10_state.md R20, R33). -/
def advancesOrWritesBit : Instr → Bool
  | .loadF _ _ => false
  | .loadG _ _ => false
  | .rdstate => false
  | .rdorder => false
  | .rdpoly => false
  | .rdbit _ => false
  | .wrbit _ _ => true
  | .round => true
  | .adv _ => true
  | .table => false
  | .tlen => false
  | .tblrd _ => false

end Sys2Proof.Safety
end

