-- ==== Sys2Proof/Certificates/Slice0/Obligations.lean ====
section
/-! DEFINITION. The statements for the provers, from the spec's numbered rules. The named witnesses that meet the
hypotheses stand in Sys2Proof/Tests/Slice0.lean under witness_<Name>. -/

open Sys2Proof Sys2Proof.Machine Sys2Proof.Safety

/-! ## Encoding -/

/-- 30_encoding.md R76: "A command word selects a command exactly when it is equal to the value in the `cmd` column",
with the twelve values written out, for every pair of operands. -/
def Obligations.WordsSelectCommandsExactly : Prop :=
  ∀ (w : CmdWord) (a b : Nat),
    (decode ⟨w, a, b⟩ = .instr (.loadF a b) ↔ w = 0b00000001#8) ∧
    (decode ⟨w, a, b⟩ = .instr (.loadG a b) ↔ w = 0b00010001#8) ∧
    (decode ⟨w, a, b⟩ = .instr .rdstate ↔ w = 0b00000010#8) ∧
    (decode ⟨w, a, b⟩ = .instr .rdorder ↔ w = 0b00000011#8) ∧
    (decode ⟨w, a, b⟩ = .instr .rdpoly ↔ w = 0b00000100#8) ∧
    (decode ⟨w, a, b⟩ = .instr (.rdbit a) ↔ w = 0b00000101#8) ∧
    (decode ⟨w, a, b⟩ = .instr (.wrbit a b) ↔ w = 0b00000110#8) ∧
    (decode ⟨w, a, b⟩ = .instr .round ↔ w = 0b00000111#8) ∧
    (decode ⟨w, a, b⟩ = .instr (.adv a) ↔ w = 0b00001000#8) ∧
    (decode ⟨w, a, b⟩ = .instr .table ↔ w = 0b00001001#8) ∧
    (decode ⟨w, a, b⟩ = .instr .tlen ↔ w = 0b00001010#8) ∧
    (decode ⟨w, a, b⟩ = .instr (.tblrd a) ↔ w = 0b00001011#8)

/-- Decode and encode agree, for every command, every operand and every NMAX: a presented command decodes to `i`
exactly when its word is the word of `i` and the operands that `i` reads (30_encoding.md R73) are on their ports; the
encoder's triple is one of those, and it fits the ports of a block exactly when the command is well formed for it. -/
def Obligations.DecodeEncodeAgree : Prop :=
  (∀ (c : Command) (i : Instr),
    decode c = .instr i ↔
      c.cmd = (encode i).cmd ∧ (i.readsA = true → c.a = (encode i).a) ∧ (i.readsB = true → c.b = (encode i).b)) ∧
  (∀ i : Instr, decode (encode i) = .instr i) ∧
  (∀ (m : Config.NMax) (i : Instr), (encode i).fits m = i.wellFormed m)

/-- 30_encoding.md R77, test by test, on the numbers of R71 (`cmd = z * 32 + t * 16 + op`): a word is illegal when `z`
is not 0; else an `op` of 1 is LOAD.F or LOAD.G by `t`; else `t = 1` is illegal; else an `op` of 2 to 11 selects the command whose
word is that number, and 0 or 12 to 15 is illegal. Which of these holds depends on the word alone. -/
def Obligations.DecodingByFields : Prop :=
  ∀ (w : CmdWord) (z t op a b : Nat), w.toNat = z * 32 + t * 16 + op → t < 2 → op < 16 →
    (z ≠ 0 → ∃ why, decode ⟨w, a, b⟩ = .illegal why) ∧
    (z = 0 → op = 1 → t = 0 → decode ⟨w, a, b⟩ = .instr (.loadF a b)) ∧
    (z = 0 → op = 1 → t = 1 → decode ⟨w, a, b⟩ = .instr (.loadG a b)) ∧
    (z = 0 → op ≠ 1 → t = 1 → ∃ why, decode ⟨w, a, b⟩ = .illegal why) ∧
    (z = 0 → t = 0 → 2 ≤ op → op ≤ 11 → ∃ i, decode ⟨w, a, b⟩ = .instr i ∧ i.word.toNat = op) ∧
    (z = 0 → t = 0 → op = 0 ∨ 12 ≤ op → ∃ why, decode ⟨w, a, b⟩ = .illegal why)

/-- 30_encoding.md R79: 12 of the 256 words are commands and 244 are illegal, in the groups 224, 15, 1 and 4, and an
illegal word ends with IllegalCommand and changes nothing. -/
def Obligations.IllegalWordsCounted : Prop :=
  ((List.range 256).countP fun w => (decodeTableWord 8 w).isSome) = 12 ∧
  ((List.range 256).countP fun w => (decodeTableWord 8 w).isNone) = 244 ∧
  ((List.range 256).countP fun w => w / 32 != 0 && (decodeTableWord 8 w).isNone) = 224 ∧
  ((List.range 256).countP fun w => w / 32 == 0 && w / 16 == 1 && (decodeTableWord 8 w).isNone) = 15 ∧
  ((List.range 256).countP fun w => w == 0 && (decodeTableWord 8 w).isNone) = 1 ∧
  ((List.range 256).countP fun w => 12 ≤ w && w ≤ 15 && (decodeTableWord 8 w).isNone) = 4 ∧
  ∀ (s : State) (c : Command) (rest : List Input) (why : IllegalWord),
    s.inputs = .command c :: rest → decode c = .illegal why →
      step s = .next { s with inputs := rest, resps := s.resps ++ [.err .illegalCommand] }

/-- 30_encoding.md R80: an operand with a dash in R73 has no effect on the state, the status or the data, whatever its
value. Two steps that differ only in ignored operands are equal. -/
def Obligations.IgnoredOperandsHaveNoEffect : Prop :=
  ∀ (s : State) (rest : List Input) (a b a' b' : Nat),
    (∀ w ∈ [0x02#8, 0x03#8, 0x04#8, 0x07#8, 0x09#8, 0x0A#8],
      step { s with inputs := .command ⟨w, a, b⟩ :: rest } = step { s with inputs := .command ⟨w, a', b'⟩ :: rest }) ∧
    (∀ w ∈ [0x05#8, 0x08#8, 0x0B#8],
      step { s with inputs := .command ⟨w, a, b⟩ :: rest } = step { s with inputs := .command ⟨w, a, b'⟩ :: rest })

/-! ## The machine: steps, reset, responses -/

/-- When the command channel holds a command that decodes to `i`, the step is exec of `i` on the state with that input
taken; nothing else happens around exec on this hardware. -/
def Obligations.StepRunsTheDecodedCommand : Prop :=
  ∀ (s : State) (c : Command) (rest : List Input) (i : Instr),
    s.inputs = .command c :: rest → decode c = .instr i → step s = exec i { s with inputs := rest }

/-- 60_exceptions.md R196: a block that is not performing a command holds its state and does nothing else. The step
of such a block is the model's (log entry 5). -/
def Obligations.IdleBlockHoldsItsState : Prop :=
  ∀ s : State, s.inputs = [] → step s = .next s

/-- 70_reset_and_hazards.md R210 and R213, with the granularity of log entry 6: `rst` leaves `valid = 0` and
`tvalid = 0` and takes no response back; asserted while a command is being performed it does the same, and the abandoned command has no
response. What the other registers hold is not stated: log entry 2. -/
def Obligations.ResetEventClearsTheFlags : Prop :=
  ∀ (s : State) (rest : List Input),
    (s.inputs = .reset :: rest →
      ∃ t, step s = .next t ∧ t.valid = false ∧ t.tvalid = false ∧ t.inputs = rest ∧ t.resps = s.resps) ∧
    (∀ c, s.inputs = .resetDuring c :: rest → step s = step { s with inputs := .reset :: rest })

/-- 10_state.md R35: the two values the spec gives for reset. -/
def Obligations.ResetStateFlags : Prop :=
  State.reset.valid = false ∧ State.reset.tvalid = false

/-- 30_encoding.md R70: one command produces exactly one response; the command is taken and no other input is. -/
def Obligations.OneResponsePerCommand : Prop :=
  ∀ (s t : State) (c : Command) (rest : List Input),
    s.inputs = .command c :: rest → step s = .next t → t.inputs = rest ∧ ∃ r, t.resps = s.resps ++ [r]

/-- 30_encoding.md R75: the status codes; 10 to 15 are never produced. -/
def Obligations.StatusCodeTable : Prop :=
  (∀ d, (Response.ok d).status = 0#4) ∧
  (Response.err .invalidPolynomial).status = 1#4 ∧
  (Response.err .invalidState).status = 2#4 ∧
  (Response.err .indexOutOfRange).status = 3#4 ∧
  (Response.err .invalidBitValue).status = 4#4 ∧
  (Response.err .cycleNotFound).status = 5#4 ∧
  (Response.err .notConstructed).status = 6#4 ∧
  (Response.err .illegalCommand).status = 7#4 ∧
  (Response.err .noTable).status = 8#4 ∧
  (Response.err .tableIndexOutOfRange).status = 9#4 ∧
  ∀ r : Response, r.status.toNat ≤ 9

/-- 60_exceptions.md R184 with 30_encoding.md R74: a command that ends with an error writes no register, no flag and
no table entry; the response is the code of the error with data 0. -/
def Obligations.ErrorsChangeNothing : Prop :=
  ∀ (s t : State) (c : Command) (rest : List Input) (e : ErrorCode),
    s.inputs = .command c :: rest → step s = .next t → t.resps = s.resps ++ [.err e] →
      t = { s with inputs := rest, resps := s.resps ++ [.err e] } ∧
      (Response.err e).status = e.code ∧ (Response.err e).data = 0

/-! ## The error conditions, each with its cause and no other -/

/-- 60_exceptions.md R181. -/
def Obligations.InvalidPolynomialCause : Prop :=
  ErrorCode.code .invalidPolynomial = 1#4 ∧
  ∀ (i : Instr) (s : State),
    Raises i s .invalidPolynomial ↔ ∃ s0, i = .loadF 0 s0 ∨ i = .loadG 0 s0

/-- 60_exceptions.md R183, with the field order of the operand said by 00_scope.md R8 (c). -/
def Obligations.InvalidStateCause : Prop :=
  ErrorCode.code .invalidState = 2#4 ∧
  ∀ (i : Instr) (s : State),
    Raises i s .invalidState ↔
      ∃ p s0 n, (i = .loadF p s0 ∨ i = .loadG p s0) ∧ 2 ^ n ≤ p ∧ p < 2 ^ (n + 1) ∧ 2 ^ n ≤ s0

/-- 60_exceptions.md R182. -/
def Obligations.IndexOutOfRangeCause : Prop :=
  ErrorCode.code .indexOutOfRange = 3#4 ∧
  ∀ (i : Instr) (s : State),
    Raises i s .indexOutOfRange ↔
      s.valid = true ∧ ∃ idx, (i = .rdbit idx ∨ ∃ v, i = .wrbit idx v) ∧ s.order ≤ idx

/-- 60_exceptions.md R185. -/
def Obligations.InvalidBitValueCause : Prop :=
  ErrorCode.code .invalidBitValue = 4#4 ∧
  ∀ (i : Instr) (s : State),
    Raises i s .invalidBitValue ↔
      s.valid = true ∧ ∃ idx v, i = .wrbit idx v ∧ idx < s.order ∧ 2 ≤ v

/-- 60_exceptions.md R187 and 43_state_table_engine.md R147: TABLE alone, when `2^n + 1` rounds from the current state
have closed on no earlier state. In a state that meets the invariant it cannot occur (R148, the spec's own inference).
`f` is the selected round. -/
def Obligations.CycleNotFoundCause : Prop :=
  ErrorCode.code .cycleNotFound = 5#4 ∧
  (∀ (i : Instr) (s : State) (f : Nat → Nat), f = roundTopo s.topo s.order s.poly →
    (Raises i s .cycleNotFound ↔
      i = .table ∧ s.valid = true ∧
        ∀ j k, j < k → k ≤ 2 ^ s.order + 1 → f^[k] s.state ≠ f^[j] s.state)) ∧
  (∀ (i : Instr) (s : State), StateInv s → ¬ Raises i s .cycleNotFound)

/-- 60_exceptions.md R186. -/
def Obligations.NotConstructedCause : Prop :=
  ErrorCode.code .notConstructed = 6#4 ∧
  ∀ (i : Instr) (s : State),
    Raises i s .notConstructed ↔
      s.valid = false ∧ (∀ p s0, i ≠ .loadF p s0) ∧ ∀ p s0, i ≠ .loadG p s0

/-- 60_exceptions.md R188. -/
def Obligations.NoTableCause : Prop :=
  ErrorCode.code .noTable = 8#4 ∧
  ∀ (i : Instr) (s : State),
    Raises i s .noTable ↔ s.valid = true ∧ s.tvalid = false ∧ (i = .tlen ∨ ∃ k, i = .tblrd k)

/-- 60_exceptions.md R189, with R192: the two checks that come first are `valid` and `tvalid`. -/
def Obligations.TableIndexOutOfRangeCause : Prop :=
  ErrorCode.code .tableIndexOutOfRange = 9#4 ∧
  ∀ (i : Instr) (s : State),
    Raises i s .tableIndexOutOfRange ↔
      s.valid = true ∧ s.tvalid = true ∧ ∃ k, i = .tblrd k ∧ s.tlen ≤ k

/-- 60_exceptions.md R190: raised whatever the state is when the word is none of the twelve; the operands are not read. -/
def Obligations.IllegalCommandCause : Prop :=
  ErrorCode.code .illegalCommand = 7#4 ∧
  ∀ (s : State) (w : CmdWord) (a b : Nat) (rest : List Input),
    s.inputs = .command ⟨w, a, b⟩ :: rest →
      (w ∉ [0x01#8, 0x11#8, 0x02#8, 0x03#8, 0x04#8, 0x05#8, 0x06#8, 0x07#8, 0x08#8, 0x09#8, 0x0A#8, 0x0B#8] ↔
        step s = .next { s with inputs := rest, resps := s.resps ++ [.err .illegalCommand] })

/-- 60_exceptions.md R199, the table of crosses (the spec's own inference from R181 to R190): a command raises only
errors of its row, and every cross but CycleNotFound is reached, in a state that meets the invariant, by some command
of that row. -/
def Obligations.ErrorMatrix : Prop :=
  (∀ (i : Instr) (s : State) (e : ErrorCode), Raises i s e → e ∈ canRaise i) ∧
  (∀ (i : Instr) (e : ErrorCode), e ∈ canRaise i → e ≠ .cycleNotFound →
    ∃ (i' : Instr) (s : State), i'.word = i.word ∧ StateInv s ∧ Raises i' s e)

/-! ## Construction and views -/

/-- 40_construct_and_views.md R101: LOAD.F completes, in every state, for a polynomial of degree `n` and an initial
state below `2^n`, and otherwise raises the two errors in their order. -/
def Obligations.LoadFConstructs : Prop :=
  ∀ (s : State) (p s0 : Nat),
    decode ⟨0x01#8, p, s0⟩ = .instr (.loadF p s0) ∧
    (∀ n, 2 ^ n ≤ p → p < 2 ^ (n + 1) → s0 < 2 ^ n →
      exec (.loadF p s0) s = .next { s with
        topo := .fibonacci, poly := p, order := n, state := s0, valid := true, tvalid := false,
        resps := s.resps ++ [.ok 0] }) ∧
    (p = 0 → exec (.loadF p s0) s = .next { s with resps := s.resps ++ [.err .invalidPolynomial] }) ∧
    (∀ n, 2 ^ n ≤ p → p < 2 ^ (n + 1) → 2 ^ n ≤ s0 →
      exec (.loadF p s0) s = .next { s with resps := s.resps ++ [.err .invalidState] })

/-- 40_construct_and_views.md R102: LOAD.G is LOAD.F with `topo <- 1`. -/
def Obligations.LoadGConstructs : Prop :=
  ∀ (s : State) (p s0 : Nat),
    decode ⟨0x11#8, p, s0⟩ = .instr (.loadG p s0) ∧
    (∀ n, 2 ^ n ≤ p → p < 2 ^ (n + 1) → s0 < 2 ^ n →
      exec (.loadG p s0) s = .next { s with
        topo := .galois, poly := p, order := n, state := s0, valid := true, tvalid := false,
        resps := s.resps ++ [.ok 0] }) ∧
    (p = 0 → exec (.loadG p s0) s = .next { s with resps := s.resps ++ [.err .invalidPolynomial] }) ∧
    (∀ n, 2 ^ n ≤ p → p < 2 ^ (n + 1) → 2 ^ n ≤ s0 →
      exec (.loadG p s0) s = .next { s with resps := s.resps ++ [.err .invalidState] })

/-- 40_construct_and_views.md R100 with 00_scope.md R8 (c): the field-order deriver is the degree, for every `p` but 0, it fails
for 0, and for a `p` of XW bits it is in `0..NMAX`. -/
def Obligations.FieldOrderIsTheDegree : Prop :=
  (∀ p n, fieldOrder p = some n ↔ 2 ^ n ≤ p ∧ p < 2 ^ (n + 1)) ∧ fieldOrder 0 = none ∧
  ∀ (m : Config.NMax) (p n : Nat), m.fitsPort p = true → fieldOrder p = some n → m.fitsOrder n = true

/-- 40_construct_and_views.md R103 (c), the zero-width register (the spec's decision D13): the polynomial 1 is accepted with the
initial state 0 only, every bit access is then out of range, every round leaves 0, and the state table is `[0]`. -/
def Obligations.ZeroWidthRegister : Prop :=
  (∀ s : State,
    exec (.loadF 1 0) s = .next { s with
      topo := .fibonacci, poly := 1, order := 0, state := 0, valid := true, tvalid := false,
      resps := s.resps ++ [.ok 0] } ∧
    exec (.loadG 1 0) s = .next { s with
      topo := .galois, poly := 1, order := 0, state := 0, valid := true, tvalid := false,
      resps := s.resps ++ [.ok 0] }) ∧
  (∀ (s : State) (s0 : Nat), 1 ≤ s0 → Raises (.loadF 1 s0) s .invalidState ∧ Raises (.loadG 1 s0) s .invalidState) ∧
  ∀ s : State, s.valid = true → s.order = 0 → s.poly = 1 → s.state = 0 →
    (∀ idx, Raises (.rdbit idx) s .indexOutOfRange) ∧ (∀ idx v, Raises (.wrbit idx v) s .indexOutOfRange) ∧
    exec .round s = .next { s with resps := s.resps ++ [.ok 0] } ∧
    exec .table s = .next { s with tbl := [0], tlen := 1, tvalid := true, resps := s.resps ++ [.ok 1] }

/-- 40_construct_and_views.md R104, R105, R106: the three views complete whenever a register is constructed, change
nothing, and their data is the register; with the invariant, the state is below `2^order` (0 when `order` is 0) and the
polynomial is not 0 with its highest set bit at `order`. Without a register they end with NotConstructed. -/
def Obligations.ViewsReturnTheRegisters : Prop :=
  (∀ a b, decode ⟨0x02#8, a, b⟩ = .instr .rdstate ∧ decode ⟨0x03#8, a, b⟩ = .instr .rdorder ∧
    decode ⟨0x04#8, a, b⟩ = .instr .rdpoly) ∧
  (∀ s : State, s.valid = false → ∀ i ∈ [.rdstate, .rdorder, .rdpoly], Raises i s .notConstructed) ∧
  ∀ s : State, s.valid = true →
    exec .rdstate s = .next { s with resps := s.resps ++ [.ok s.state] } ∧
    exec .rdorder s = .next { s with resps := s.resps ++ [.ok s.order] } ∧
    exec .rdpoly s = .next { s with resps := s.resps ++ [.ok s.poly] } ∧
    (StateInv s →
      s.state < 2 ^ s.order ∧ (s.order = 0 → s.state = 0) ∧ (s.poly = 1 → s.order = 0) ∧
      s.poly ≠ 0 ∧ 2 ^ s.order ≤ s.poly ∧ s.poly < 2 ^ (s.order + 1))

/-! ## Bit access -/

/-- 41_bit_access.md R120: RDBIT completes on an index below `order`, with data 0 or 1, and is out of range from `order`
on (for `order = 0`, always). -/
def Obligations.ReadBit : Prop :=
  (∀ idx b, decode ⟨0x05#8, idx, b⟩ = .instr (.rdbit idx)) ∧
  ∀ (s : State) (idx : Nat), s.valid = true →
    (idx < s.order →
      exec (.rdbit idx) s = .next { s with resps := s.resps ++ [.ok (s.state / 2 ^ idx % 2)] }) ∧
    (s.order ≤ idx → exec (.rdbit idx) s = .next { s with resps := s.resps ++ [.err .indexOutOfRange] })

/-- 41_bit_access.md R121: WRBIT completes on an index below `order` and a value 0 or 1, and the new state has that bit
replaced, all others kept, and stays in range; the index is checked before the value; a value of 2 or more is not truncated. -/
def Obligations.WriteBit : Prop :=
  (∀ idx v, decode ⟨0x06#8, idx, v⟩ = .instr (.wrbit idx v)) ∧
  ∀ (s : State) (idx v : Nat), s.valid = true →
    (idx < s.order → v < 2 →
      ∃ w, exec (.wrbit idx v) s = .next { s with state := w, resps := s.resps ++ [.ok 0] } ∧
        (∀ j, w / 2 ^ j % 2 = if j = idx then v else s.state / 2 ^ j % 2) ∧
        (s.state < 2 ^ s.order → w < 2 ^ s.order)) ∧
    (s.order ≤ idx → exec (.wrbit idx v) s = .next { s with resps := s.resps ++ [.err .indexOutOfRange] }) ∧
    (idx < s.order → 2 ≤ v →
      exec (.wrbit idx v) s = .next { s with resps := s.resps ++ [.err .invalidBitValue] })

/-- 41_bit_access.md R122, read after write (the spec's own inference from R120 and R121). -/
def Obligations.ReadAfterWriteBit : Prop :=
  ∀ (s : State) (idx v : Nat), s.valid = true → idx < s.order → v < 2 →
    ∃ t, exec (.wrbit idx v) s = .next t ∧
      exec (.rdbit idx) t = .next { t with resps := t.resps ++ [.ok v] } ∧
      ∀ j, j < s.order → j ≠ idx →
        exec (.rdbit j) t = .next { t with resps := t.resps ++ [.ok (s.state / 2 ^ j % 2)] }

/-! ## The two rounds -/

/-- 44_fibonacci_round.md R160, bit by bit: for `n >= 1` every bit moves down by one, the top bit is the XOR of the
tapped bits (the parity of the number of tapped bits that are set) and the result is in range; for `n = 0` it is 0. -/
def Obligations.FibonacciRoundBits : Prop :=
  (∀ n p s, 1 ≤ n → 2 ^ n ≤ p → p < 2 ^ (n + 1) → s < 2 ^ n →
    (∀ i, i + 2 ≤ n → fibRound n p s / 2 ^ i % 2 = s / 2 ^ (i + 1) % 2) ∧
    fibRound n p s / 2 ^ (n - 1) % 2 = (∑ i ∈ Finset.range n, (s / 2 ^ i % 2) * (p / 2 ^ i % 2)) % 2 ∧
    fibRound n p s < 2 ^ n) ∧
  fibRound 0 1 0 = 0

/-- 45_galois_round.md R170, bit by bit: bit `i` is `s[i+1] XOR (s[0] AND p[i])` below the top and `s[0] AND p[n-1]` at
the top, and the result is in range; for `n = 0` it is 0. -/
def Obligations.GaloisRoundBits : Prop :=
  (∀ n p s, 1 ≤ n → 2 ^ n ≤ p → p < 2 ^ (n + 1) → s < 2 ^ n →
    (∀ i, i + 2 ≤ n →
      galRound n p s / 2 ^ i % 2 = (s / 2 ^ (i + 1) % 2 + (s % 2) * (p / 2 ^ i % 2)) % 2) ∧
    galRound n p s / 2 ^ (n - 1) % 2 = (s % 2) * (p / 2 ^ (n - 1) % 2) ∧
    galRound n p s < 2 ^ n) ∧
  galRound 0 1 0 = 0

/-- The worked examples of 44_fibonacci_round.md R165 (c), 45_galois_round.md R174 (c), (g) and 95_test_vectors.md
section 5, the last on 64 bits. -/
def Obligations.WorkedRounds : Prop :=
  fibRound 4 0b10011 0b1010 = 0b1101 ∧ galRound 4 0b10011 0b1010 = 0b0101 ∧
  galRound 4 0b10011 0b0101 = 0b0001 ∧
  fibRound 64 0x1000000000000001B 0xDEADBEEFCAFEF00D = 0x6F56DF77E57F7806 ∧
  galRound 64 0x1000000000000001B 0xDEADBEEFCAFEF00D = 0x6F56DF77E57F781D

/-- 44_fibonacci_round.md R165 (a) and 45_galois_round.md R175 (a) (the spec's own inferences): both rounds are linear
over GF(2). -/
def Obligations.RoundsAreLinear : Prop :=
  ∀ (t : Topology) (n p x y : Nat), x < 2 ^ n → y < 2 ^ n →
    roundTopo t n p (x ^^^ y) = roundTopo t n p x ^^^ roundTopo t n p y

/-- 44_fibonacci_round.md R165 (b) (the spec's own inference): for `n >= 1` the Fibonacci round is a bijection of the
states exactly when the polynomial has its constant term. -/
def Obligations.FibonacciBijectiveIffConstantTerm : Prop :=
  ∀ n p, 1 ≤ n → 2 ^ n ≤ p → p < 2 ^ (n + 1) →
    (Set.BijOn (fibRound n p) (Set.Iio (2 ^ n)) (Set.Iio (2 ^ n)) ↔ p % 2 = 1)

/-- 45_galois_round.md R175 (b) (the spec's own inference): for `n >= 1` the Galois round is a bijection of the states
exactly when bit `n - 1` of the polynomial is set. -/
def Obligations.GaloisBijectiveIffTopTap : Prop :=
  ∀ n p, 1 ≤ n → 2 ^ n ≤ p → p < 2 ^ (n + 1) →
    (Set.BijOn (galRound n p) (Set.Iio (2 ^ n)) (Set.Iio (2 ^ n)) ↔ p / 2 ^ (n - 1) % 2 = 1)

/-- 44_fibonacci_round.md R162 with 90_conflicts.md C6: the degree bit is no tap. Two polynomials with the same bits
below `n` give the same round, in both topologies and for every value of the state, in range or not; and (the spec's
own inference) for a state in range the XOR would be the same if the degree bit took part in it. -/
def Obligations.DegreeBitIsNoTap : Prop :=
  (∀ (t : Topology) (n p q s : Nat), (∀ i, i < n → p / 2 ^ i % 2 = q / 2 ^ i % 2) →
    roundTopo t n p s = roundTopo t n q s) ∧
  ∀ n p s, s < 2 ^ n → parity (s &&& p) = parity (s &&& tapmask n p)

/-- 42_round_and_advance.md R135 (d), 44_fibonacci_round.md R164 (a), 45_galois_round.md R174 (a): with no taps both
rounds are the shift, and after `n` of them the register is empty. -/
def Obligations.NoTapsShiftOnly : Prop :=
  ∀ (t : Topology) (n s : Nat), s < 2 ^ n →
    roundTopo t n (2 ^ n) s = s / 2 ∧ (roundTopo t n (2 ^ n))^[n] s = 0

/-! ## ROUND and ADV -/

/-- 42_round_and_advance.md R131: ROUND completes whenever a register is constructed; the new state is the selected
round of the old (R130) and is the response. -/
def Obligations.RoundCompletes : Prop :=
  (∀ a b, decode ⟨0x07#8, a, b⟩ = .instr .round) ∧
  ∀ s : State, s.valid = true →
    (s.topo = .fibonacci →
      exec .round s = .next { s with
        state := fibRound s.order s.poly s.state,
        resps := s.resps ++ [.ok (fibRound s.order s.poly s.state)] }) ∧
    (s.topo = .galois →
      exec .round s = .next { s with
        state := galRound s.order s.poly s.state,
        resps := s.resps ++ [.ok (galRound s.order s.poly s.state)] })

/-- 42_round_and_advance.md R132: ADV completes whenever a register is constructed, for every count; the new state is
that many applications of the selected round and is the response; with count 0 the state is as before. -/
def Obligations.AdvCompletes : Prop :=
  (∀ c b, decode ⟨0x08#8, c, b⟩ = .instr (.adv c)) ∧
  ∀ (s : State) (c : Nat) (f : Nat → Nat), s.valid = true → f = roundTopo s.topo s.order s.poly →
    exec (.adv c) s = .next { s with
      state := f^[c] s.state, resps := s.resps ++ [.ok (f^[c] s.state)] } ∧
    exec (.adv 0) s = .next { s with resps := s.resps ++ [.ok s.state] } ∧
    exec (.adv 1) s = exec .round s

/-- 42_round_and_advance.md R133 (the spec's own inference from R131 and R132): `c` ROUND commands in a row leave the
same registers as one ADV `c`, give `c` responses, and the last of them is the response of ADV; and ADV `c1` followed by
ADV `c2` leaves the state of ADV `c1 + c2`. -/
def Obligations.AdvIsRepeatedRound : Prop :=
  ∀ (s : State) (c : Nat), s.valid = true →
    (∃ t u, Sys2Proof.core.run c { s with inputs := List.replicate c (.command ⟨0x07#8, 0, 0⟩) } = .next t ∧
      step { s with inputs := [.command ⟨0x08#8, c, 0⟩] } = .next u ∧
      u = { t with resps := u.resps } ∧ u.resps = s.resps ++ [.ok t.state] ∧
      t.resps.length = s.resps.length + c ∧ (0 < c → t.resps.getLast? = u.resps.getLast?)) ∧
    (∀ c2, ∃ t u v, exec (.adv c) s = .next t ∧ exec (.adv c2) t = .next u ∧ exec (.adv (c + c2)) s = .next v ∧
      u.state = v.state)

/-- 42_round_and_advance.md R135 (a) (the spec's own inference): the all-zero state is a fixed point of both rounds, so
no count of rounds leaves it and its table has the one entry 0. -/
def Obligations.ZeroStateLocksUp : Prop :=
  (∀ (t : Topology) (n p : Nat), roundTopo t n p 0 = 0) ∧
  ∀ (s : State) (c : Nat), s.valid = true → s.state = 0 →
    exec (.adv c) s = .next { s with resps := s.resps ++ [.ok 0] } ∧
    exec .table s = .next { s with tbl := [0], tlen := 1, tvalid := true, resps := s.resps ++ [.ok 1] }

/-! ## The state table -/

/-- 43_state_table_engine.md R144, R145, R147: the engine answers the list `s_0, ..., s_(m-1)` of rounds from the start
state exactly for the smallest `m >= 1` such that `s_m` is one of the states before it, and only for an `m` up to the
bound `2^n + 1`. So entry `k` is the content `k` clock edges after the start (70_reset_and_hazards.md R221). -/
def Obligations.StateTableDefinition : Prop :=
  ∀ (t : Topology) (n p s0 : Nat) (entries : List Nat) (f : Nat → Nat), f = roundTopo t n p →
    (stateTable t n p s0 = some entries ↔
      ∃ m, 1 ≤ m ∧ m ≤ 2 ^ n + 1 ∧ entries = (List.range m).map (fun j => f^[j] s0) ∧
        (∃ j, j < m ∧ f^[m] s0 = f^[j] s0) ∧ ∀ j k, j < k → k < m → f^[k] s0 ≠ f^[j] s0)

/-- 43_state_table_engine.md R140, R148, R149, R151 (R148 and R149 are the spec's own inferences): in every state that
meets the invariant, TABLE completes; it writes the table, its length and the flag, nothing else; the table starts at
the current state, each entry is the round of the one before, the round of the last is among them, the entries differ,
are below `2^order` and are at most `2^order` many. -/
def Obligations.TableCompletes : Prop :=
  ∀ s : State, StateInv s → s.valid = true →
    ∃ entries, exec .table s = .next { s with
        tbl := entries, tlen := entries.length, tvalid := true, resps := s.resps ++ [.ok entries.length] } ∧
      1 ≤ entries.length ∧ entries.length ≤ 2 ^ s.order ∧ entries.head? = some s.state ∧
      (∀ x ∈ entries, x < 2 ^ s.order) ∧ entries.Nodup ∧
      (∀ k x, k + 1 < entries.length → entries[k]? = some x →
        entries[k + 1]? = some (roundTopo s.topo s.order s.poly x)) ∧
      (∀ x, entries.getLast? = some x → roundTopo s.topo s.order s.poly x ∈ entries)

/-- 43_state_table_engine.md R146: TABLE always computes and never answers from the buffer: whatever the buffer holds,
the outcome is the same. -/
def Obligations.TableNeverAnswersFromTheBuffer : Prop :=
  ∀ (s : State) (flag : Bool) (len : Nat) (entries : List Nat), RegisterInv s → s.valid = true →
    exec .table { s with tvalid := flag, tlen := len, tbl := entries } = exec .table s

/-- 43_state_table_engine.md R151 and R140: the registers, `state` among them, have the same value after TABLE as
before it, on success and on failure. -/
def Obligations.TableLeavesTheRegisters : Prop :=
  ∀ s t : State, exec .table s = .next t →
    t.state = s.state ∧ t.poly = s.poly ∧ t.order = s.order ∧ t.topo = s.topo ∧ t.valid = s.valid ∧
    t.inputs = s.inputs

/-- 43_state_table_engine.md R142: TLEN completes when the buffer holds a table, and is NoTable when it does not. -/
def Obligations.TlenReturnsTheLength : Prop :=
  (∀ a b, decode ⟨0x0A#8, a, b⟩ = .instr .tlen) ∧
  ∀ s : State, s.valid = true →
    (s.tvalid = true → exec .tlen s = .next { s with resps := s.resps ++ [.ok s.tlen] }) ∧
    (s.tvalid = false → exec .tlen s = .next { s with resps := s.resps ++ [.err .noTable] }) ∧
    (s.tvalid = true → StateInv s → 1 ≤ s.tlen ∧ s.tlen ≤ 2 ^ s.order)

/-- 43_state_table_engine.md R143: TBLRD completes on an index below `tlen` when the buffer holds a table in its
canonical form, with the entry as data; NoTable comes before TableIndexOutOfRange. -/
def Obligations.TblrdReturnsTheEntry : Prop :=
  (∀ k b, decode ⟨0x0B#8, k, b⟩ = .instr (.tblrd k)) ∧
  ∀ (s : State) (k : Nat), s.valid = true →
    (Memory.wf s = true → s.tvalid = true → k < s.tlen →
      ∃ v, s.tbl[k]? = some v ∧ exec (.tblrd k) s = .next { s with resps := s.resps ++ [.ok v] }) ∧
    (s.tvalid = false → exec (.tblrd k) s = .next { s with resps := s.resps ++ [.err .noTable] }) ∧
    (s.tvalid = true → s.tlen ≤ k →
      exec (.tblrd k) s = .next { s with resps := s.resps ++ [.err .tableIndexOutOfRange] })

/-! ## Frames -/

/-- 20_memory.md R55: RDSTATE, RDORDER, RDPOLY, RDBIT, TLEN and TBLRD leave every register, every flag and every entry
of the table as it was. -/
def Obligations.ReadingCommandsFrame : Prop :=
  ∀ (i : Instr) (s t : State),
    (i ∈ [.rdstate, .rdorder, .rdpoly, .tlen] ∨ (∃ idx, i = .rdbit idx) ∨ ∃ k, i = .tblrd k) →
    exec i s = .next t →
      t.valid = s.valid ∧ t.topo = s.topo ∧ t.poly = s.poly ∧ t.order = s.order ∧ t.state = s.state ∧
      t.tvalid = s.tvalid ∧ t.tlen = s.tlen ∧ t.inputs = s.inputs ∧ ∀ k, t.memRead k = s.memRead k

/-- The frame of WRBIT, ROUND and ADV (10_state.md R20, R26, R33): they write `state` and nothing else; the table buffer does not
follow the state (70_reset_and_hazards.md R217). -/
def Obligations.StateWritingCommandsFrame : Prop :=
  ∀ (i : Instr) (s t : State),
    (i = .round ∨ (∃ c, i = .adv c) ∨ ∃ idx v, i = .wrbit idx v) → exec i s = .next t →
      t.valid = s.valid ∧ t.topo = s.topo ∧ t.poly = s.poly ∧ t.order = s.order ∧
      t.tvalid = s.tvalid ∧ t.tlen = s.tlen ∧ t.inputs = s.inputs ∧ ∀ k, t.memRead k = s.memRead k

/-- The frame of LOAD.F and LOAD.G (10_state.md R20, R26): they write `valid`, `topo`, `poly`, `order`, `state` and
`tvalid`, all six with the values of 40_construct_and_views.md R101 and R102 or none; the table's length and entries are not written, only disowned (log entry 4). -/
def Obligations.ConstructionFrame : Prop :=
  ∀ (i : Instr) (p s0 : Nat) (s t : State),
    (i = .loadF p s0 ∨ i = .loadG p s0) → exec i s = .next t →
      t.tlen = s.tlen ∧ t.inputs = s.inputs ∧ (∀ k, t.memRead k = s.memRead k) ∧
      ((t.valid = true ∧ t.tvalid = false ∧ t.poly = p ∧ t.state = s0 ∧ fieldOrder p = some t.order ∧
          (i = .loadF p s0 → t.topo = .fibonacci) ∧ (i = .loadG p s0 → t.topo = .galois)) ∨
        (t.valid = s.valid ∧ t.tvalid = s.tvalid ∧ t.topo = s.topo ∧ t.poly = s.poly ∧ t.order = s.order ∧
          t.state = s.state))

/-- The column "written by" of 10_state.md R20, with R25 and R33, over all commands: only a construction changes
`topo`, `poly` and `order` or sets `valid`, and nothing clears it; only a construction, WRBIT, ROUND or ADV changes
`state`; only TABLE sets `tvalid` and only a construction clears it; only TABLE changes the table space (that a construction
leaves it is log entry 4). -/
def Obligations.WhoWritesEachRegister : Prop :=
  ∀ (i : Instr) (s t : State), exec i s = .next t →
    (t.valid ≠ s.valid → isLoad i = true ∧ t.valid = true) ∧
    (t.topo ≠ s.topo ∨ t.poly ≠ s.poly ∨ t.order ≠ s.order → isLoad i = true) ∧
    (t.state ≠ s.state → isLoad i = true ∨ advancesOrWritesBit i = true) ∧
    (t.tvalid ≠ s.tvalid → (isLoad i = true ∧ t.tvalid = false) ∨ (i = .table ∧ t.tvalid = true)) ∧
    (t.tlen ≠ s.tlen ∨ (∃ k, t.memRead k ≠ s.memRead k) → i = .table)

/-! ## Whole-machine rules -/

/-- 10_state.md R32 (that every command preserves it is the spec's own inference): every step keeps the invariant,
from every state that meets it. -/
def Obligations.StepKeepsTheInvariant : Prop :=
  ∀ s t : State, StateInv s → step s = .next t → StateInv t

/-- The invariant holds after reset, and reset fits a block of every NMAX. That the buffer is canonical there is the
model's choice of an empty table (log entries 2 and 4). -/
def Obligations.ResetMeetsTheInvariant : Prop :=
  StateInv State.reset ∧ ∀ m : Config.NMax, Fits m State.reset

/-- 00_scope.md R5 with 10_state.md R20 and 30_encoding.md R74: for every NMAX, a block whose inputs fit its ports keeps
every register within its width and every response within the data port. So the machine on unbounded naturals (log entry
1) is the block of each NMAX. -/
def Obligations.StepKeepsTheWidths : Prop :=
  ∀ (m : Config.NMax) (s t : State), StateInv s → Fits m s → step s = .next t → Fits m t

/-- 70_reset_and_hazards.md R223 with 60_exceptions.md R193: from every state that meets the invariant, a step answers a
next state; no command, no illegal word and no reset stops the block. -/
def Obligations.StepNeverStops : Prop :=
  ∀ s : State, StateInv s → ∃ t, step s = .next t

/-- 70_reset_and_hazards.md R211 with 10_state.md R25, R26, R35: no command can observe a register that holds no
value. Two states that differ only in such registers go to two states that differ only in such registers, with the
same responses; so nothing rests on the values of log entry 2. -/
def Obligations.ValuelessRegistersUnobserved : Prop :=
  ∀ s t s' : State, SameToHost s t → step s = .next s' → ∃ t', step t = .next t' ∧ SameToHost s' t'

/-- 42_round_and_advance.md R134: two instances that receive the same inputs after reset give the same responses and
end in the same architectural state, whatever their other registers held after reset, for every number of steps: the
same flags, the same registers once one is constructed, the same table once one is computed. -/
def Obligations.SameInputsSameResponses : Prop :=
  ∀ (k : Nat) (s t s' : State),
    s.valid = false → s.tvalid = false → t.valid = false → t.tvalid = false →
    t.inputs = s.inputs → t.resps = s.resps →
    Sys2Proof.core.run k s = .next s' →
      ∃ t', Sys2Proof.core.run k t = .next t' ∧ t'.resps = s'.resps ∧ t'.inputs = s'.inputs ∧
        t'.valid = s'.valid ∧ t'.tvalid = s'.tvalid ∧
        (s'.valid = true → t'.topo = s'.topo ∧ t'.poly = s'.poly ∧ t'.order = s'.order ∧ t'.state = s'.state) ∧
        (s'.tvalid = true → t'.tlen = s'.tlen ∧ t'.tbl = s'.tbl)
end

