-- ==== Sys2Proof/Laws/Decode.lean ====
section
/-! SUPPORT. Decoding depends on the command word alone (30_encoding.md R77): the operands are put in afterwards, so a
fact about all words and operands is a fact about the 256 words. -/

namespace Sys2Proof

/-- The same command with the operands on the ports. -/
def Instr.withPorts (i : Instr) (a b : Nat) : Instr :=
  match i with
  | .loadF _ _ => .loadF a b
  | .loadG _ _ => .loadG a b
  | .rdstate => .rdstate
  | .rdorder => .rdorder
  | .rdpoly => .rdpoly
  | .rdbit _ => .rdbit a
  | .wrbit _ _ => .wrbit a b
  | .round => .round
  | .adv _ => .adv a
  | .table => .table
  | .tlen => .tlen
  | .tblrd _ => .tblrd a

/-- The same outcome with the operands on the ports. -/
def Decoded.withPorts (d : Decoded) (a b : Nat) : Decoded :=
  match d with
  | .instr i => .instr (i.withPorts a b)
  | .illegal why => .illegal why

theorem Decoded.withPorts_ite (c : Prop) [Decidable c] (x y : Decoded) (a b : Nat) :
    (if c then x else y).withPorts a b = if c then x.withPorts a b else y.withPorts a b := by
  by_cases h : c <;> simp only [h, if_true, if_false]

theorem decode_withPorts (w : CmdWord) (a b : Nat) : decode ⟨w, a, b⟩ = (decode ⟨w, 0, 0⟩).withPorts a b := by
  simp only [decode, Decoded.withPorts_ite]
  simp only [Decoded.withPorts, Instr.withPorts]

/-- What a word decodes to with operands 0 has operands 0. -/
theorem decode_zero_eq (w : CmdWord) (i : Instr) (h : decode ⟨w, 0, 0⟩ = .instr i) : i.withPorts 0 0 = i := by
  have := decode_withPorts w 0 0
  rw [h] at this
  simpa [Decoded.withPorts] using this.symm

/-- The words that are commands are the encoder's. -/
theorem word_of_decode_zero (w : CmdWord) (i : Instr) (h : decode ⟨w, 0, 0⟩ = .instr i) : i.word = w := by
  have all : ∀ w : CmdWord, ((decode ⟨w, 0, 0⟩).instr?.map Instr.word).getD w = w := by decide
  simpa [h, Decoded.instr?] using all w

/-- The word of a command decodes to that command, with what is on the ports as its operands. -/
theorem decode_word (i : Instr) (a b : Nat) : decode ⟨i.word, a, b⟩ = .instr (i.withPorts a b) := by
  rw [decode_withPorts]
  have at0 : ∀ j : Instr, decode ⟨j.word, 0, 0⟩ = .instr (j.withPorts 0 0) →
      (decode ⟨j.word, 0, 0⟩).withPorts a b = .instr (j.withPorts a b) := by
    intro j h
    rw [h]
    cases j <;> rfl
  cases i
  case loadF => exact at0 (.loadF 0 0) (by decide)
  case loadG => exact at0 (.loadG 0 0) (by decide)
  case rdstate => exact at0 .rdstate (by decide)
  case rdorder => exact at0 .rdorder (by decide)
  case rdpoly => exact at0 .rdpoly (by decide)
  case rdbit => exact at0 (.rdbit 0) (by decide)
  case wrbit => exact at0 (.wrbit 0 0) (by decide)
  case round => exact at0 .round (by decide)
  case adv => exact at0 (.adv 0) (by decide)
  case table => exact at0 .table (by decide)
  case tlen => exact at0 .tlen (by decide)
  case tblrd => exact at0 (.tblrd 0) (by decide)

end Sys2Proof
end

