-- ==== Sys2Proof/Laws/Operands.lean ====
section
/-! SUPPORT. One lemma for each thing the helper functions of 00_scope.md R8 are used for. -/

namespace Sys2Proof.Machine

theorem bit_eq_toNat_testBit (v i : Nat) : bit v i = (v.testBit i).toNat := by
  rw [Nat.toNat_testBit, bit]

theorem bit_lt_two (v i : Nat) : bit v i < 2 := Nat.mod_lt _ (by omega)

theorem bit_xor (x y i : Nat) : bit (x ^^^ y) i = bit x i ^^^ bit y i := by
  simp only [bit_eq_toNat_testBit, Nat.testBit_xor]
  cases x.testBit i <;> cases y.testBit i <;> rfl

theorem bit_and (x y i : Nat) : bit (x &&& y) i = bit x i * bit y i := by
  simp only [bit_eq_toNat_testBit, Nat.testBit_and]
  cases x.testBit i <;> cases y.testBit i <;> rfl

theorem bit_tapmask (n p i : Nat) : bit (tapmask n p) i = if i < n then bit p i else 0 := by
  simp only [bit_eq_toNat_testBit, tapmask, Nat.testBit_mod_two_pow]
  by_cases h : i < n <;> simp [h]

theorem tapmask_lt (n p : Nat) : tapmask n p < 2 ^ n := Nat.mod_lt _ (Nat.two_pow_pos n)

/-- A value is decided by its bits. -/
theorem eq_of_bit_eq {x y : Nat} (h : ∀ i, bit x i = bit y i) : x = y := by
  refine Nat.eq_of_testBit_eq fun i => ?_
  have := h i
  rw [bit_eq_toNat_testBit, bit_eq_toNat_testBit] at this
  cases hx : x.testBit i <;> cases hy : y.testBit i <;> simp_all

theorem bit_eq_zero_of_lt {v k i : Nat} (h : v < 2 ^ k) (hi : k ≤ i) : bit v i = 0 := by
  rw [bit, Nat.div_eq_of_lt (lt_of_lt_of_le h (Nat.pow_le_pow_right (by omega) hi))]

/-- A value fits `k` bits when no bit from `k` on is set. -/
theorem lt_two_pow_of_bit {v k : Nat} (h : ∀ i, k ≤ i → bit v i = 0) : v < 2 ^ k := by
  refine Nat.lt_pow_two_of_testBit _ fun i hi => ?_
  have := h i hi
  rw [bit_eq_toNat_testBit] at this
  cases hb : v.testBit i <;> simp_all

/-- `setbit` replaces one bit and keeps the others. -/
theorem bit_setbit (v i w j : Nat) (hw : w < 2) :
    bit (setbit v i w) j = if j = i then w else bit v j := by
  have split : ∀ b, b < 2 → ∀ lo hi, lo < 2 ^ i →
      bit (lo + 2 ^ i * (b + 2 * hi)) j
        = if j = i then b else if j < i then bit lo j else bit hi (j - i - 1) := by
    intro b hb lo hi hlo
    unfold bit
    rcases Nat.lt_trichotomy j i with h | h | h
    · obtain ⟨d, rfl⟩ : ∃ d, i = j + (d + 1) := ⟨i - j - 1, by omega⟩
      have e : lo + 2 ^ (j + (d + 1)) * (b + 2 * hi)
          = lo + 2 ^ j * (2 * (2 ^ d * (b + 2 * hi))) := by ring
      rw [e, Nat.add_mul_div_left _ _ (Nat.two_pow_pos j), Nat.add_mul_mod_self_left]
      simp
    · subst h
      rw [Nat.add_mul_div_left _ _ (Nat.two_pow_pos j), Nat.div_eq_of_lt hlo]
      simp; omega
    · obtain ⟨d, rfl⟩ : ∃ d, j = i + (d + 1) := ⟨j - i - 1, by omega⟩
      rw [Nat.pow_add, ← Nat.div_div_eq_div_mul, Nat.add_mul_div_left _ _ (Nat.two_pow_pos i),
        Nat.div_eq_of_lt hlo, Nat.pow_succ', ← Nat.div_div_eq_div_mul]
      have : (0 + (b + 2 * hi)) / 2 = hi := by omega
      rw [this]
      have h1 : i + (d + 1) - i - 1 = d := by omega
      rw [if_neg (by omega), if_neg (by omega), h1]
  have hv : v = v % 2 ^ i + 2 ^ i * (bit v i + 2 * (v / 2 ^ i / 2)) := by
    have h1 := Nat.mod_add_div v (2 ^ i)
    have h2 : bit v i + 2 * (v / 2 ^ i / 2) = v / 2 ^ i := by unfold bit; omega
    rw [h2]; exact h1.symm
  have hs : setbit v i w = v % 2 ^ i + 2 ^ i * (w + 2 * (v / 2 ^ i / 2)) := by
    unfold setbit
    generalize hb : bit v i = b at hv ⊢
    generalize v / 2 ^ i / 2 = hi at hv ⊢
    generalize v % 2 ^ i = lo at hv ⊢
    rw [hv]
    have h3 : lo + 2 ^ i * (b + 2 * hi) - b * 2 ^ i = lo + 2 ^ i * (2 * hi) := by
      rw [Nat.sub_eq_iff_eq_add (by nlinarith [Nat.zero_le (2 ^ i * hi)])]; ring
    rw [h3]; ring
  have hlo : v % 2 ^ i < 2 ^ i := Nat.mod_lt _ (Nat.two_pow_pos i)
  have hr : bit v j = bit (v % 2 ^ i + 2 ^ i * (bit v i + 2 * (v / 2 ^ i / 2))) j := by rw [← hv]
  rw [hs, split w hw _ _ hlo, hr, split (bit v i) (bit_lt_two v i) _ _ hlo]
  by_cases h : j = i
  · simp only [if_pos h]
  · simp only [if_neg h]

theorem parityBelow_lt_two (k v : Nat) : parityBelow k v < 2 := by
  induction k with
  | zero => simp [parityBelow]
  | succ k ih =>
    have := bit_lt_two v k
    unfold parityBelow
    exact Nat.xor_lt_two_pow (n := 1) this ih

/-- The XOR of the low bits is the parity of their number (93_implementation_defined.md G3). -/
theorem parityBelow_eq_sum (k v : Nat) : parityBelow k v = (∑ i ∈ Finset.range k, bit v i) % 2 := by
  induction k with
  | zero => rfl
  | succ k ih =>
    rw [Finset.sum_range_succ, parityBelow, ih]
    have h1 := bit_lt_two v k
    generalize bit v k = b at *
    generalize (∑ i ∈ Finset.range k, bit v i) = c
    rcases Nat.mod_two_eq_zero_or_one c with h | h <;>
      (have : b = 0 ∨ b = 1 := by omega) <;> rcases this with rfl | rfl <;> rw [h] <;> simp <;> omega

/-- Bits above the value do not take part, so a width that holds the value gives its parity. -/
theorem parity_eq_parityBelow {k v : Nat} (h : v < 2 ^ k) : parity v = parityBelow k v := by
  have grow : ∀ d m, v < 2 ^ m → parityBelow (m + d) v = parityBelow m v := by
    intro d m hm
    induction d with
    | zero => rfl
    | succ d ih =>
      rw [← Nat.add_assoc, parityBelow, bit_eq_zero_of_lt hm (by omega), ih, Nat.zero_xor]
  have hl : v < 2 ^ (v.log2 + 1) := Nat.lt_log2_self
  rcases Nat.le_total k (v.log2 + 1) with hk | hk
  · obtain ⟨d, hd⟩ := Nat.exists_eq_add_of_le hk
    rw [parity, hd, grow d k h]
  · obtain ⟨d, hd⟩ := Nat.exists_eq_add_of_le hk
    rw [parity, hd, grow d _ hl]

theorem parity_lt_two (v : Nat) : parity v < 2 := parityBelow_lt_two _ _

@[simp] theorem parity_zero : parity 0 = 0 := rfl

theorem parityBelow_xor (k x y : Nat) : parityBelow k (x ^^^ y) = parityBelow k x ^^^ parityBelow k y := by
  induction k with
  | zero => simp [parityBelow]
  | succ k ih => simp only [parityBelow, bit_xor, ih]; ac_rfl

end Sys2Proof.Machine
end

