-- ==== Sys2Proof/Laws/Rounds.lean ====
section
/-! SUPPORT. What the two rounds give: the range (44_fibonacci_round.md R163, 45_galois_round.md R173), each bit, and
repetition as iteration. -/

namespace Sys2Proof.Machine

theorem bit_shiftRight_one (s i : Nat) : bit (s >>> 1) i = bit s (i + 1) := by
  simp only [bit_eq_toNat_testBit, Nat.testBit_shiftRight, Nat.add_comm 1 i]

/-- A bit `b` placed at position `k`. -/
theorem bit_shiftLeft {b : Nat} (hb : b < 2) (k i : Nat) : bit (b <<< k) i = if i = k then b else 0 := by
  have e : b <<< k = setbit 0 k b := by simp [setbit, bit, Nat.shiftLeft_eq]
  rw [e, bit_setbit _ _ _ _ hb]
  simp [bit]

theorem bit_or (x y i : Nat) : bit (x ||| y) i = bit x i ||| bit y i := by
  simp only [bit_eq_toNat_testBit, Nat.testBit_or]
  cases x.testBit i <;> cases y.testBit i <;> rfl

theorem shiftRight_one_lt {n s : Nat} (h : s < 2 ^ n) : s >>> 1 < 2 ^ n :=
  lt_of_le_of_lt (by rw [Nat.shiftRight_eq_div_pow]; omega) h

/-- Every bit of the Fibonacci round, for a state in range. -/
theorem bit_fibRound {n s : Nat} (p i : Nat) (hn : 1 ≤ n) (hs : s < 2 ^ n) :
    bit (fibRound n p s) i = if i = n - 1 then parity (s &&& tapmask n p) else bit s (i + 1) := by
  rw [fibRound, if_neg (by omega), bit_or, bit_shiftRight_one, bit_shiftLeft (parity_lt_two _)]
  by_cases h : i = n - 1
  · rw [if_pos h, if_pos h, bit_eq_zero_of_lt hs (by omega), Nat.zero_or]
  · rw [if_neg h, if_neg h, Nat.or_zero]

/-- Every bit of the Galois round. -/
theorem bit_galRound (n p s i : Nat) :
    bit (galRound n p s) i = bit s (i + 1) ^^^ (bit s 0 * bit (tapmask n p) i) := by
  unfold galRound
  split
  · next h => rw [bit_xor, bit_shiftRight_one, h, Nat.one_mul]
  · next h =>
    have : bit s 0 = 0 := by have := bit_lt_two s 0; omega
    rw [bit_shiftRight_one, this, Nat.zero_mul, Nat.xor_zero]

theorem fibRound_lt {n s : Nat} (p : Nat) (hs : s < 2 ^ n) : fibRound n p s < 2 ^ n := by
  by_cases h0 : n = 0
  · subst h0; simp [fibRound]
  · refine lt_two_pow_of_bit fun i hi => ?_
    rw [bit_fibRound p i (by omega) hs, if_neg (by omega), bit_eq_zero_of_lt hs (by omega)]

theorem galRound_lt {n s : Nat} (p : Nat) (hs : s < 2 ^ n) : galRound n p s < 2 ^ n := by
  unfold galRound
  split
  · exact Nat.xor_lt_two_pow (shiftRight_one_lt hs) (tapmask_lt n p)
  · exact shiftRight_one_lt hs

/-- Both rounds map the states into themselves. -/
theorem roundTopo_lt {t : Topology} {n s : Nat} (p : Nat) (hs : s < 2 ^ n) : roundTopo t n p s < 2 ^ n := by
  cases t
  · exact fibRound_lt p hs
  · exact galRound_lt p hs

/-- Any number of rounds stays in range. -/
theorem iterate_roundTopo_lt {t : Topology} {n s : Nat} (p c : Nat) (hs : s < 2 ^ n) :
    (roundTopo t n p)^[c] s < 2 ^ n := by
  induction c generalizing s with
  | zero => exact hs
  | succ c ih => exact ih (roundTopo_lt p hs)

/-- `c` rounds one after the other are the `c`-fold iterate of the round. -/
theorem advance_eq_iterate (t : Topology) (n p c s : Nat) : advance t n p c s = (roundTopo t n p)^[c] s := by
  induction c generalizing s with
  | zero => rfl
  | succ c ih => exact ih _

theorem advance_lt {t : Topology} {n s : Nat} (p c : Nat) (hs : s < 2 ^ n) : advance t n p c s < 2 ^ n := by
  rw [advance_eq_iterate]; exact iterate_roundTopo_lt p c hs

end Sys2Proof.Machine
end

