-- ==== Sys2Proof/Laws/Engine.lean ====
section
/-! SUPPORT. Everything the loop of the state-table engine can do: it answers after the first pass that closes, if one
of the passes allowed does (43_state_table_engine.md R145, R147). -/

namespace Sys2Proof.Machine

/-- The first `k` states of the sequence of rounds from `s0`. -/
def orbit (f : Nat → Nat) (s0 k : Nat) : List Nat := (List.range k).map (fun j => f^[j] s0)

@[simp] theorem orbit_length (f : Nat → Nat) (s0 k : Nat) : (orbit f s0 k).length = k := by simp [orbit]

theorem orbit_succ (f : Nat → Nat) (s0 k : Nat) : orbit f s0 (k + 1) = orbit f s0 k ++ [f^[k] s0] := by
  simp [orbit, List.range_succ]

theorem mem_orbit {f : Nat → Nat} {s0 k x : Nat} : x ∈ orbit f s0 k ↔ ∃ j, j < k ∧ f^[j] s0 = x := by
  simp [orbit, eq_comm]

/-- One pass from the first `k + 1` states: closure, or one state more. -/
theorem tableLoop_pass (t : Topology) (n p s0 k passes : Nat) :
    tableLoop t n p (passes + 1) ((roundTopo t n p)^[k] s0) (orbit (roundTopo t n p) s0 (k + 1)) =
      if (roundTopo t n p)^[k + 1] s0 ∈ orbit (roundTopo t n p) s0 (k + 1)
      then some (orbit (roundTopo t n p) s0 (k + 1))
      else tableLoop t n p passes ((roundTopo t n p)^[k + 1] s0) (orbit (roundTopo t n p) s0 (k + 2)) := by
  rw [tableLoop, ← Function.iterate_succ_apply' (roundTopo t n p), orbit_succ _ _ (k + 1)]
  simp only [List.contains_iff_mem]

/-- The loop answers exactly at the first closure within the passes allowed. -/
theorem tableLoop_eq_some (t : Topology) (n p s0 passes k : Nat) (entries : List Nat) :
    tableLoop t n p passes ((roundTopo t n p)^[k] s0) (orbit (roundTopo t n p) s0 (k + 1)) = some entries ↔
      ∃ m, k < m ∧ m ≤ k + passes ∧ entries = orbit (roundTopo t n p) s0 m ∧
        (roundTopo t n p)^[m] s0 ∈ orbit (roundTopo t n p) s0 m ∧
        ∀ l, k < l → l < m → (roundTopo t n p)^[l] s0 ∉ orbit (roundTopo t n p) s0 l := by
  induction passes generalizing k with
  | zero =>
    simp only [tableLoop, reduceCtorEq, false_iff]
    rintro ⟨m, h1, h2, -⟩
    omega
  | succ passes ih =>
    rw [tableLoop_pass]
    split
    · next hc =>
      constructor
      · intro h
        exact ⟨k + 1, by omega, by omega, by simpa using h.symm, hc, fun l _ _ => by omega⟩
      · rintro ⟨m, h1, h2, h3, -, h5⟩
        rcases Nat.lt_or_ge (k + 1) m with h | h
        · exact absurd hc (h5 (k + 1) (by omega) h)
        · obtain rfl : m = k + 1 := by omega
          simp [h3]
    · next hc =>
      rw [ih (k + 1)]
      constructor
      · rintro ⟨m, h1, h2, h3, h4, h5⟩
        refine ⟨m, by omega, by omega, h3, h4, fun l hl hm => ?_⟩
        rcases Nat.lt_or_ge (k + 1) l with h | h
        · exact h5 l h hm
        · obtain rfl : l = k + 1 := by omega
          exact hc
      · rintro ⟨m, h1, h2, h3, h4, h5⟩
        have : m ≠ k + 1 := fun h => hc (h ▸ h4)
        exact ⟨m, by omega, by omega, h3, h4, fun l hl hm => h5 l (by omega) hm⟩

/-- Where no state of the first `k` repeats an earlier one, they are pairwise different. -/
theorem orbit_nodup {f : Nat → Nat} {s0 k : Nat} (h : ∀ l, l < k → f^[l] s0 ∉ orbit f s0 l) :
    (orbit f s0 k).Nodup := by
  induction k with
  | zero => simp [orbit]
  | succ k ih =>
    rw [orbit_succ, List.nodup_append]
    refine ⟨ih fun l hl => h l (by omega), by simp, ?_⟩
    intro a ha b hb e
    rw [List.mem_singleton] at hb
    exact h k (by omega) (hb ▸ e ▸ ha)

/-- From a state in range the sequence closes within `2^n` rounds (43_state_table_engine.md R148). -/
theorem orbit_closes {t : Topology} {n s0 : Nat} (p : Nat) (hs : s0 < 2 ^ n) :
    ∃ m, 1 ≤ m ∧ m ≤ 2 ^ n ∧ (roundTopo t n p)^[m] s0 ∈ orbit (roundTopo t n p) s0 m := by
  by_contra hno
  push Not at hno
  have hnd : (orbit (roundTopo t n p) s0 (2 ^ n + 1)).Nodup := by
    refine orbit_nodup fun l hl => ?_
    rcases Nat.eq_zero_or_pos l with rfl | h
    · simp [orbit]
    · exact hno l h (by omega)
  have hsub : ∀ x ∈ orbit (roundTopo t n p) s0 (2 ^ n + 1), x ∈ List.range (2 ^ n) := by
    intro x hx
    obtain ⟨j, -, rfl⟩ := mem_orbit.mp hx
    exact List.mem_range.mpr (iterate_roundTopo_lt p j hs)
  have := (hnd.subperm hsub).length_le
  simp at this

/-- In range the engine answers, with at most `2^n` entries. -/
theorem stateTable_of_lt {t : Topology} {n s0 : Nat} (p : Nat) (hs : s0 < 2 ^ n) :
    ∃ m, 1 ≤ m ∧ m ≤ 2 ^ n ∧ stateTable t n p s0 = some (orbit (roundTopo t n p) s0 m) ∧
      (roundTopo t n p)^[m] s0 ∈ orbit (roundTopo t n p) s0 m ∧
      (orbit (roundTopo t n p) s0 m).Nodup ∧ ∀ x ∈ orbit (roundTopo t n p) s0 m, x < 2 ^ n := by
  classical
  have hex := orbit_closes (t := t) p hs
  obtain ⟨h1, h2, h3⟩ := Nat.find_spec hex
  have hmin : ∀ l, 1 ≤ l → l < Nat.find hex → (roundTopo t n p)^[l] s0 ∉ orbit (roundTopo t n p) s0 l :=
    fun l hl hm hc => Nat.find_min hex hm ⟨hl, by omega, hc⟩
  refine ⟨Nat.find hex, h1, h2, ?_, h3, orbit_nodup fun l hl => ?_, fun x hx => ?_⟩
  · have hstart : [s0] = orbit (roundTopo t n p) s0 (0 + 1) := by simp [orbit]
    rw [stateTable, hstart]
    exact (tableLoop_eq_some t n p s0 _ 0 _).mpr ⟨_, h1, by omega, rfl, h3, fun l hl hm => hmin l hl hm⟩
  · rcases Nat.eq_zero_or_pos l with rfl | h
    · simp [orbit]
    · exact hmin l h hl
  · obtain ⟨j, -, rfl⟩ := mem_orbit.mp hx
    exact iterate_roundTopo_lt p j hs

end Sys2Proof.Machine
end

