-- ==== Sys2Proof/Laws/State.lean ====
section
/-! SUPPORT. One lemma per field per update of State, so that no proof unfolds a record update. -/

namespace Sys2Proof.Machine

@[simp] theorem State.succeed_eq (s : State) (d : Nat) : s.succeed d = s.respond (.ok d) := rfl
@[simp] theorem State.raise_eq (s : State) (e : ErrorCode) : s.raise e = s.respond (.err e) := rfl

/-! ### respond -/

@[simp] theorem State.respond_valid (s : State) (r : Response) : (s.respond r).valid = s.valid := rfl
@[simp] theorem State.respond_topo (s : State) (r : Response) : (s.respond r).topo = s.topo := rfl
@[simp] theorem State.respond_poly (s : State) (r : Response) : (s.respond r).poly = s.poly := rfl
@[simp] theorem State.respond_order (s : State) (r : Response) : (s.respond r).order = s.order := rfl
@[simp] theorem State.respond_state (s : State) (r : Response) : (s.respond r).state = s.state := rfl
@[simp] theorem State.respond_tvalid (s : State) (r : Response) : (s.respond r).tvalid = s.tvalid := rfl
@[simp] theorem State.respond_tlen (s : State) (r : Response) : (s.respond r).tlen = s.tlen := rfl
@[simp] theorem State.respond_tbl (s : State) (r : Response) : (s.respond r).tbl = s.tbl := rfl
@[simp] theorem State.respond_inputs (s : State) (r : Response) : (s.respond r).inputs = s.inputs := rfl
@[simp] theorem State.respond_resps (s : State) (r : Response) : (s.respond r).resps = s.resps ++ [r] := rfl

/-! ### flagsConstructed -/

@[simp] theorem State.flagsConstructed_valid (s : State) : s.flagsConstructed.valid = true := rfl
@[simp] theorem State.flagsConstructed_topo (s : State) : s.flagsConstructed.topo = s.topo := rfl
@[simp] theorem State.flagsConstructed_poly (s : State) : s.flagsConstructed.poly = s.poly := rfl
@[simp] theorem State.flagsConstructed_order (s : State) : s.flagsConstructed.order = s.order := rfl
@[simp] theorem State.flagsConstructed_state (s : State) : s.flagsConstructed.state = s.state := rfl
@[simp] theorem State.flagsConstructed_tvalid (s : State) : s.flagsConstructed.tvalid = false := rfl
@[simp] theorem State.flagsConstructed_tlen (s : State) : s.flagsConstructed.tlen = s.tlen := rfl
@[simp] theorem State.flagsConstructed_tbl (s : State) : s.flagsConstructed.tbl = s.tbl := rfl
@[simp] theorem State.flagsConstructed_inputs (s : State) : s.flagsConstructed.inputs = s.inputs := rfl
@[simp] theorem State.flagsConstructed_resps (s : State) : s.flagsConstructed.resps = s.resps := rfl

/-! ### flagsTable -/

@[simp] theorem State.flagsTable_valid (s : State) : s.flagsTable.valid = s.valid := rfl
@[simp] theorem State.flagsTable_topo (s : State) : s.flagsTable.topo = s.topo := rfl
@[simp] theorem State.flagsTable_poly (s : State) : s.flagsTable.poly = s.poly := rfl
@[simp] theorem State.flagsTable_order (s : State) : s.flagsTable.order = s.order := rfl
@[simp] theorem State.flagsTable_state (s : State) : s.flagsTable.state = s.state := rfl
@[simp] theorem State.flagsTable_tvalid (s : State) : s.flagsTable.tvalid = true := rfl
@[simp] theorem State.flagsTable_tlen (s : State) : s.flagsTable.tlen = s.tlen := rfl
@[simp] theorem State.flagsTable_tbl (s : State) : s.flagsTable.tbl = s.tbl := rfl
@[simp] theorem State.flagsTable_inputs (s : State) : s.flagsTable.inputs = s.inputs := rfl
@[simp] theorem State.flagsTable_resps (s : State) : s.flagsTable.resps = s.resps := rfl

/-! ### writeState -/

@[simp] theorem State.writeState_valid (s : State) (v : Nat) : (s.writeState v).valid = s.valid := rfl
@[simp] theorem State.writeState_topo (s : State) (v : Nat) : (s.writeState v).topo = s.topo := rfl
@[simp] theorem State.writeState_poly (s : State) (v : Nat) : (s.writeState v).poly = s.poly := rfl
@[simp] theorem State.writeState_order (s : State) (v : Nat) : (s.writeState v).order = s.order := rfl
@[simp] theorem State.writeState_state (s : State) (v : Nat) : (s.writeState v).state = v := rfl
@[simp] theorem State.writeState_tvalid (s : State) (v : Nat) : (s.writeState v).tvalid = s.tvalid := rfl
@[simp] theorem State.writeState_tlen (s : State) (v : Nat) : (s.writeState v).tlen = s.tlen := rfl
@[simp] theorem State.writeState_tbl (s : State) (v : Nat) : (s.writeState v).tbl = s.tbl := rfl
@[simp] theorem State.writeState_inputs (s : State) (v : Nat) : (s.writeState v).inputs = s.inputs := rfl
@[simp] theorem State.writeState_resps (s : State) (v : Nat) : (s.writeState v).resps = s.resps := rfl

/-! ### construct -/

@[simp] theorem State.construct_valid (s : State) (t : Topology) (p n s0 : Nat) : (s.construct t p n s0).valid = true := rfl
@[simp] theorem State.construct_topo (s : State) (t : Topology) (p n s0 : Nat) : (s.construct t p n s0).topo = t := rfl
@[simp] theorem State.construct_poly (s : State) (t : Topology) (p n s0 : Nat) : (s.construct t p n s0).poly = p := rfl
@[simp] theorem State.construct_order (s : State) (t : Topology) (p n s0 : Nat) : (s.construct t p n s0).order = n := rfl
@[simp] theorem State.construct_state (s : State) (t : Topology) (p n s0 : Nat) : (s.construct t p n s0).state = s0 := rfl
@[simp] theorem State.construct_tvalid (s : State) (t : Topology) (p n s0 : Nat) : (s.construct t p n s0).tvalid = false := rfl
@[simp] theorem State.construct_tlen (s : State) (t : Topology) (p n s0 : Nat) : (s.construct t p n s0).tlen = s.tlen := rfl
@[simp] theorem State.construct_tbl (s : State) (t : Topology) (p n s0 : Nat) : (s.construct t p n s0).tbl = s.tbl := rfl
@[simp] theorem State.construct_inputs (s : State) (t : Topology) (p n s0 : Nat) : (s.construct t p n s0).inputs = s.inputs := rfl
@[simp] theorem State.construct_resps (s : State) (t : Topology) (p n s0 : Nat) : (s.construct t p n s0).resps = s.resps := rfl

/-! ### writeTable -/

@[simp] theorem State.writeTable_valid (s : State) (l : List Nat) : (s.writeTable l).valid = s.valid := rfl
@[simp] theorem State.writeTable_topo (s : State) (l : List Nat) : (s.writeTable l).topo = s.topo := rfl
@[simp] theorem State.writeTable_poly (s : State) (l : List Nat) : (s.writeTable l).poly = s.poly := rfl
@[simp] theorem State.writeTable_order (s : State) (l : List Nat) : (s.writeTable l).order = s.order := rfl
@[simp] theorem State.writeTable_state (s : State) (l : List Nat) : (s.writeTable l).state = s.state := rfl
@[simp] theorem State.writeTable_tvalid (s : State) (l : List Nat) : (s.writeTable l).tvalid = true := rfl
@[simp] theorem State.writeTable_tlen (s : State) (l : List Nat) : (s.writeTable l).tlen = l.length := rfl
@[simp] theorem State.writeTable_tbl (s : State) (l : List Nat) : (s.writeTable l).tbl = l := rfl
@[simp] theorem State.writeTable_inputs (s : State) (l : List Nat) : (s.writeTable l).inputs = s.inputs := rfl
@[simp] theorem State.writeTable_resps (s : State) (l : List Nat) : (s.writeTable l).resps = s.resps := rfl

/-! ### withInputs -/

@[simp] theorem State.withInputs_valid (s : State) (rest : List Input) : (s.withInputs rest).valid = s.valid := rfl
@[simp] theorem State.withInputs_topo (s : State) (rest : List Input) : (s.withInputs rest).topo = s.topo := rfl
@[simp] theorem State.withInputs_poly (s : State) (rest : List Input) : (s.withInputs rest).poly = s.poly := rfl
@[simp] theorem State.withInputs_order (s : State) (rest : List Input) : (s.withInputs rest).order = s.order := rfl
@[simp] theorem State.withInputs_state (s : State) (rest : List Input) : (s.withInputs rest).state = s.state := rfl
@[simp] theorem State.withInputs_tvalid (s : State) (rest : List Input) : (s.withInputs rest).tvalid = s.tvalid := rfl
@[simp] theorem State.withInputs_tlen (s : State) (rest : List Input) : (s.withInputs rest).tlen = s.tlen := rfl
@[simp] theorem State.withInputs_tbl (s : State) (rest : List Input) : (s.withInputs rest).tbl = s.tbl := rfl
@[simp] theorem State.withInputs_inputs (s : State) (rest : List Input) : (s.withInputs rest).inputs = rest := rfl
@[simp] theorem State.withInputs_resps (s : State) (rest : List Input) : (s.withInputs rest).resps = s.resps := rfl

/-! ### takeReset -/

@[simp] theorem State.takeReset_valid (s : State) : s.takeReset.valid = false := rfl
@[simp] theorem State.takeReset_topo (s : State) : s.takeReset.topo = .fibonacci := rfl
@[simp] theorem State.takeReset_poly (s : State) : s.takeReset.poly = 0 := rfl
@[simp] theorem State.takeReset_order (s : State) : s.takeReset.order = 0 := rfl
@[simp] theorem State.takeReset_state (s : State) : s.takeReset.state = 0 := rfl
@[simp] theorem State.takeReset_tvalid (s : State) : s.takeReset.tvalid = false := rfl
@[simp] theorem State.takeReset_tlen (s : State) : s.takeReset.tlen = 0 := rfl
@[simp] theorem State.takeReset_tbl (s : State) : s.takeReset.tbl = [] := rfl
@[simp] theorem State.takeReset_inputs (s : State) : s.takeReset.inputs = s.inputs := rfl
@[simp] theorem State.takeReset_resps (s : State) : s.takeReset.resps = s.resps := rfl

end Sys2Proof.Machine
end

