-- ==== Sys2Proof/Laws/Ops.lean ====
section
/-! SUPPORT. One lemma for each shared operation that says everything it can do, and from them what exec and step can
answer. Later proofs cite these and unfold no meaning. -/

namespace Sys2Proof.Machine

theorem whenConstructed_of_valid {s : State} (k : Answer) (h : s.valid = true) : whenConstructed s k = k := by
  simp [whenConstructed, h]

theorem whenConstructed_of_not_valid {s : State} (k : Answer) (h : s.valid = false) :
    whenConstructed s k = .next (s.respond (.err .notConstructed)) := by
  simp [whenConstructed, h]

theorem whenConstructed_eq_next {s t : State} {k : Answer} (h : whenConstructed s k = .next t) :
    (s.valid = false ∧ t = s.respond (.err .notConstructed)) ∨ (s.valid = true ∧ k = .next t) := by
  cases hv : s.valid
  · rw [whenConstructed_of_not_valid k hv] at h
    exact .inl ⟨rfl, by simpa using h.symm⟩
  · rw [whenConstructed_of_valid k hv] at h
    exact .inr ⟨rfl, h⟩

theorem whenTable_of_tvalid {s : State} (k : Answer) (h : s.tvalid = true) : whenTable s k = k := by
  simp [whenTable, h]

theorem whenTable_of_not_tvalid {s : State} (k : Answer) (h : s.tvalid = false) :
    whenTable s k = .next (s.respond (.err .noTable)) := by
  simp [whenTable, h]

theorem whenTable_eq_next {s t : State} {k : Answer} (h : whenTable s k = .next t) :
    (s.tvalid = false ∧ t = s.respond (.err .noTable)) ∨ (s.tvalid = true ∧ k = .next t) := by
  cases hv : s.tvalid
  · rw [whenTable_of_not_tvalid k hv] at h
    exact .inl ⟨rfl, by simpa using h.symm⟩
  · rw [whenTable_of_tvalid k hv] at h
    exact .inr ⟨rfl, h⟩

/-- Construction always answers a next state, and one of three. -/
theorem loadRegister_cases (t : Topology) (p s0 : Nat) (s : State) :
    (fieldOrder p = none ∧ loadRegister t p s0 s = .next (s.respond (.err .invalidPolynomial))) ∨
    (∃ n, fieldOrder p = some n ∧ 2 ^ n ≤ s0 ∧
      loadRegister t p s0 s = .next (s.respond (.err .invalidState))) ∨
    (∃ n, fieldOrder p = some n ∧ s0 < 2 ^ n ∧
      loadRegister t p s0 s = .next ((s.construct t p n s0).respond (.ok 0))) := by
  cases hp : fieldOrder p with
  | none => exact .inl ⟨rfl, by simp [loadRegister, hp]⟩
  | some n =>
    rcases Nat.lt_or_ge s0 (2 ^ n) with h | h
    · exact .inr (.inr ⟨n, rfl, h, by simp [loadRegister, hp, Nat.not_le.mpr h]⟩)
    · exact .inr (.inl ⟨n, rfl, h, by simp [loadRegister, hp, h]⟩)

/-! ## The canonical form of the table buffer -/

theorem Memory.wf_iff (s : State) : Memory.wf s = true ↔ s.tbl.length = s.tlen := by simp [Memory.wf]

theorem Memory.wf_reset : Memory.wf State.reset = true := rfl

@[simp] theorem Memory.wf_respond (s : State) (r : Response) : Memory.wf (s.respond r) = Memory.wf s := rfl
@[simp] theorem Memory.wf_writeState (s : State) (v : Nat) : Memory.wf (s.writeState v) = Memory.wf s := rfl
@[simp] theorem Memory.wf_construct (s : State) (t : Topology) (p n s0 : Nat) :
    Memory.wf (s.construct t p n s0) = Memory.wf s := rfl
@[simp] theorem Memory.wf_writeTable (s : State) (l : List Nat) : Memory.wf (s.writeTable l) = true := by
  simp [Memory.wf]
@[simp] theorem Memory.wf_withInputs (s : State) (rest : List Input) :
    Memory.wf (s.withInputs rest) = Memory.wf s := rfl
@[simp] theorem Memory.wf_takeReset (s : State) : Memory.wf s.takeReset = true := rfl

/-- A read in a buffer of canonical form gives an entry exactly below the length. -/
theorem State.memRead_of_wf {s : State} (h : Memory.wf s = true) (k : Nat) : s.memRead k = s.tbl[k]? := by
  rw [Memory.wf_iff] at h
  unfold State.memRead
  split
  · rfl
  · rw [List.getElem?_eq_none (by omega)]

@[simp] theorem State.memRead_respond (s : State) (r : Response) (k : Nat) :
    (s.respond r).memRead k = s.memRead k := rfl
@[simp] theorem State.memRead_writeState (s : State) (v k : Nat) : (s.writeState v).memRead k = s.memRead k := rfl
@[simp] theorem State.memRead_construct (s : State) (t : Topology) (p n s0 k : Nat) :
    (s.construct t p n s0).memRead k = s.memRead k := rfl
@[simp] theorem State.memRead_writeTable (s : State) (l : List Nat) (k : Nat) :
    (s.writeTable l).memRead k = l[k]? :=
  State.memRead_of_wf (s := s.writeTable l) (Memory.wf_writeTable s l) k
@[simp] theorem State.memRead_withInputs (s : State) (rest : List Input) (k : Nat) :
    (s.withInputs rest).memRead k = s.memRead k := rfl

/-! ## What exec can answer -/

/-- The state a command leaves when it succeeds, constructor by constructor. -/
def Completed (i : Instr) (s t : State) : Prop :=
  match i with
  | .loadF p s0 => ∃ n, fieldOrder p = some n ∧ s0 < 2 ^ n ∧ t = (s.construct .fibonacci p n s0).respond (.ok 0)
  | .loadG p s0 => ∃ n, fieldOrder p = some n ∧ s0 < 2 ^ n ∧ t = (s.construct .galois p n s0).respond (.ok 0)
  | .rdstate => s.valid = true ∧ t = s.respond (.ok s.state)
  | .rdorder => s.valid = true ∧ t = s.respond (.ok s.order)
  | .rdpoly => s.valid = true ∧ t = s.respond (.ok s.poly)
  | .rdbit idx => s.valid = true ∧ idx < s.order ∧ t = s.respond (.ok (bit s.state idx))
  | .wrbit idx v =>
    s.valid = true ∧ idx < s.order ∧ v < 2 ∧ t = (s.writeState (setbit s.state idx v)).respond (.ok 0)
  | .round =>
    s.valid = true ∧ t = (s.writeState (roundTopo s.topo s.order s.poly s.state)).respond
      (.ok (roundTopo s.topo s.order s.poly s.state))
  | .adv c =>
    s.valid = true ∧ t = (s.writeState (advance s.topo s.order s.poly c s.state)).respond
      (.ok (advance s.topo s.order s.poly c s.state))
  | .table =>
    s.valid = true ∧ ∃ l, stateTable s.topo s.order s.poly s.state = some l ∧
      t = (s.writeTable l).respond (.ok l.length)
  | .tlen => s.valid = true ∧ s.tvalid = true ∧ t = s.respond (.ok s.tlen)
  | .tblrd k =>
    s.valid = true ∧ s.tvalid = true ∧ k < s.tlen ∧ ∃ v, s.memRead k = some v ∧ t = s.respond (.ok v)

/-- Why a command ends with an error, constructor by constructor (60_exceptions.md R192, step 2 and 3). -/
def Failed (i : Instr) (s : State) (e : ErrorCode) : Prop :=
  match i with
  | .loadF p s0 =>
    (fieldOrder p = none ∧ e = .invalidPolynomial) ∨ ∃ n, fieldOrder p = some n ∧ 2 ^ n ≤ s0 ∧ e = .invalidState
  | .loadG p s0 =>
    (fieldOrder p = none ∧ e = .invalidPolynomial) ∨ ∃ n, fieldOrder p = some n ∧ 2 ^ n ≤ s0 ∧ e = .invalidState
  | .rdstate => s.valid = false ∧ e = .notConstructed
  | .rdorder => s.valid = false ∧ e = .notConstructed
  | .rdpoly => s.valid = false ∧ e = .notConstructed
  | .rdbit idx =>
    (s.valid = false ∧ e = .notConstructed) ∨ (s.valid = true ∧ s.order ≤ idx ∧ e = .indexOutOfRange)
  | .wrbit idx v =>
    (s.valid = false ∧ e = .notConstructed) ∨ (s.valid = true ∧ s.order ≤ idx ∧ e = .indexOutOfRange) ∨
      (s.valid = true ∧ idx < s.order ∧ 2 ≤ v ∧ e = .invalidBitValue)
  | .round => s.valid = false ∧ e = .notConstructed
  | .adv _ => s.valid = false ∧ e = .notConstructed
  | .table =>
    (s.valid = false ∧ e = .notConstructed) ∨
      (s.valid = true ∧ stateTable s.topo s.order s.poly s.state = none ∧ e = .cycleNotFound)
  | .tlen =>
    (s.valid = false ∧ e = .notConstructed) ∨ (s.valid = true ∧ s.tvalid = false ∧ e = .noTable)
  | .tblrd k =>
    (s.valid = false ∧ e = .notConstructed) ∨ (s.valid = true ∧ s.tvalid = false ∧ e = .noTable) ∨
      (s.valid = true ∧ s.tvalid = true ∧ s.tlen ≤ k ∧ e = .tableIndexOutOfRange)

/-- TBLRD's one stop: the length counts an entry that the buffer does not hold. -/
def Stops (i : Instr) (s : State) : Prop :=
  match i with
  | .tblrd k => s.valid = true ∧ s.tvalid = true ∧ k < s.tlen ∧ s.memRead k = none
  | .loadF _ _ => False
  | .loadG _ _ => False
  | .rdstate => False
  | .rdorder => False
  | .rdpoly => False
  | .rdbit _ => False
  | .wrbit _ _ => False
  | .round => False
  | .adv _ => False
  | .table => False
  | .tlen => False

/-- Everything a command can do: it succeeds, it ends with an error and changes nothing else, or it is TBLRD's stop. -/
theorem exec_cases (i : Instr) (s : State) :
    (∃ t, Completed i s t ∧ exec i s = .next t) ∨
    (∃ e, Failed i s e ∧ exec i s = .next (s.respond (.err e))) ∨
    (Stops i s ∧ exec i s = .fault .tableEntryAbsent) := by
  cases i with
  | loadF p s0 =>
    rcases loadRegister_cases .fibonacci p s0 s with ⟨h, e⟩ | ⟨n, h, h', e⟩ | ⟨n, h, h', e⟩
    · exact .inr (.inl ⟨_, .inl ⟨h, rfl⟩, e⟩)
    · exact .inr (.inl ⟨_, .inr ⟨n, h, h', rfl⟩, e⟩)
    · exact .inl ⟨_, ⟨n, h, h', rfl⟩, e⟩
  | loadG p s0 =>
    rcases loadRegister_cases .galois p s0 s with ⟨h, e⟩ | ⟨n, h, h', e⟩ | ⟨n, h, h', e⟩
    · exact .inr (.inl ⟨_, .inl ⟨h, rfl⟩, e⟩)
    · exact .inr (.inl ⟨_, .inr ⟨n, h, h', rfl⟩, e⟩)
    · exact .inl ⟨_, ⟨n, h, h', rfl⟩, e⟩
  | rdstate =>
    cases hv : s.valid
    · exact .inr (.inl ⟨_, ⟨hv, rfl⟩, whenConstructed_of_not_valid _ hv⟩)
    · exact .inl ⟨_, ⟨hv, rfl⟩, whenConstructed_of_valid _ hv⟩
  | rdorder =>
    cases hv : s.valid
    · exact .inr (.inl ⟨_, ⟨hv, rfl⟩, whenConstructed_of_not_valid _ hv⟩)
    · exact .inl ⟨_, ⟨hv, rfl⟩, whenConstructed_of_valid _ hv⟩
  | rdpoly =>
    cases hv : s.valid
    · exact .inr (.inl ⟨_, ⟨hv, rfl⟩, whenConstructed_of_not_valid _ hv⟩)
    · exact .inl ⟨_, ⟨hv, rfl⟩, whenConstructed_of_valid _ hv⟩
  | rdbit idx =>
    cases hv : s.valid
    · exact .inr (.inl ⟨_, .inl ⟨hv, rfl⟩, whenConstructed_of_not_valid _ hv⟩)
    · rcases Nat.lt_or_ge idx s.order with h | h
      · exact .inl ⟨_, ⟨hv, h, rfl⟩, by simp [exec, execRdbit, whenConstructed, hv, Nat.not_le.mpr h]⟩
      · exact .inr (.inl ⟨_, .inr ⟨hv, h, rfl⟩, by simp [exec, execRdbit, whenConstructed, hv, h]⟩)
  | wrbit idx v =>
    cases hv : s.valid
    · exact .inr (.inl ⟨_, .inl ⟨hv, rfl⟩, whenConstructed_of_not_valid _ hv⟩)
    · rcases Nat.lt_or_ge idx s.order with h | h
      · rcases Nat.lt_or_ge v 2 with h2 | h2
        · exact .inl ⟨_, ⟨hv, h, h2, rfl⟩,
            by simp [exec, execWrbit, whenConstructed, hv, Nat.not_le.mpr h, Nat.not_le.mpr h2]⟩
        · exact .inr (.inl ⟨_, .inr (.inr ⟨hv, h, h2, rfl⟩),
            by simp [exec, execWrbit, whenConstructed, hv, Nat.not_le.mpr h, h2]⟩)
      · exact .inr (.inl ⟨_, .inr (.inl ⟨hv, h, rfl⟩), by simp [exec, execWrbit, whenConstructed, hv, h]⟩)
  | round =>
    cases hv : s.valid
    · exact .inr (.inl ⟨_, ⟨hv, rfl⟩, whenConstructed_of_not_valid _ hv⟩)
    · exact .inl ⟨_, ⟨hv, rfl⟩, whenConstructed_of_valid _ hv⟩
  | adv c =>
    cases hv : s.valid
    · exact .inr (.inl ⟨_, ⟨hv, rfl⟩, whenConstructed_of_not_valid _ hv⟩)
    · exact .inl ⟨_, ⟨hv, rfl⟩, whenConstructed_of_valid _ hv⟩
  | table =>
    cases hv : s.valid
    · exact .inr (.inl ⟨_, .inl ⟨hv, rfl⟩, whenConstructed_of_not_valid _ hv⟩)
    · cases hl : stateTable s.topo s.order s.poly s.state with
      | none => exact .inr (.inl ⟨_, .inr ⟨hv, hl, rfl⟩, by simp [exec, execTable, whenConstructed, hv, hl]⟩)
      | some l => exact .inl ⟨_, ⟨hv, l, hl, rfl⟩, by simp [exec, execTable, whenConstructed, hv, hl]⟩
  | tlen =>
    cases hv : s.valid
    · exact .inr (.inl ⟨_, .inl ⟨hv, rfl⟩, whenConstructed_of_not_valid _ hv⟩)
    · cases ht : s.tvalid
      · exact .inr (.inl ⟨_, .inr ⟨hv, ht, rfl⟩, by simp [exec, execTlen, whenConstructed, whenTable, hv, ht]⟩)
      · exact .inl ⟨_, ⟨hv, ht, rfl⟩, by simp [exec, execTlen, whenConstructed, whenTable, hv, ht]⟩
  | tblrd k =>
    cases hv : s.valid
    · exact .inr (.inl ⟨_, .inl ⟨hv, rfl⟩, whenConstructed_of_not_valid _ hv⟩)
    · cases ht : s.tvalid
      · exact .inr (.inl ⟨_, .inr (.inl ⟨hv, ht, rfl⟩),
          by simp [exec, execTblrd, whenConstructed, whenTable, hv, ht]⟩)
      · rcases Nat.lt_or_ge k s.tlen with h | h
        · cases hm : s.memRead k with
          | some v => exact .inl ⟨_, ⟨hv, ht, h, v, hm, rfl⟩,
              by simp [exec, execTblrd, whenConstructed, whenTable, hv, ht, Nat.not_le.mpr h, hm]⟩
          | none => exact .inr (.inr ⟨⟨hv, ht, h, hm⟩,
              by simp [exec, execTblrd, whenConstructed, whenTable, hv, ht, Nat.not_le.mpr h, hm]⟩)
        · exact .inr (.inl ⟨_, .inr (.inr ⟨hv, ht, h, rfl⟩),
            by simp [exec, execTblrd, whenConstructed, whenTable, hv, ht, h]⟩)

/-- What a command's next state can be. -/
theorem exec_eq_next {i : Instr} {s t : State} (h : exec i s = .next t) :
    Completed i s t ∨ ∃ e, Failed i s e ∧ t = s.respond (.err e) := by
  rcases exec_cases i s with ⟨t', hc, e⟩ | ⟨e, hf, e'⟩ | ⟨-, e⟩
  · rw [h, Host.Outcome.next.injEq] at e
    exact .inl (e ▸ hc)
  · rw [h, Host.Outcome.next.injEq] at e'
    exact .inr ⟨e, hf, e'⟩
  · rw [h] at e; simp at e

/-- A command that succeeds gives one response, an OK. -/
theorem Completed.resps {i : Instr} {s t : State} (h : Completed i s t) :
    ∃ d, t.resps = s.resps ++ [.ok d] := by
  cases i <;> simp only [Completed] at h
  case loadF => obtain ⟨n, -, -, rfl⟩ := h; exact ⟨_, rfl⟩
  case loadG => obtain ⟨n, -, -, rfl⟩ := h; exact ⟨_, rfl⟩
  case rdstate => obtain ⟨-, rfl⟩ := h; exact ⟨_, rfl⟩
  case rdorder => obtain ⟨-, rfl⟩ := h; exact ⟨_, rfl⟩
  case rdpoly => obtain ⟨-, rfl⟩ := h; exact ⟨_, rfl⟩
  case rdbit => obtain ⟨-, -, rfl⟩ := h; exact ⟨_, rfl⟩
  case wrbit => obtain ⟨-, -, -, rfl⟩ := h; exact ⟨_, rfl⟩
  case round => obtain ⟨-, rfl⟩ := h; exact ⟨_, rfl⟩
  case adv => obtain ⟨-, rfl⟩ := h; exact ⟨_, rfl⟩
  case table => obtain ⟨-, l, -, rfl⟩ := h; exact ⟨_, rfl⟩
  case tlen => obtain ⟨-, -, rfl⟩ := h; exact ⟨_, rfl⟩
  case tblrd => obtain ⟨-, -, -, v, -, rfl⟩ := h; exact ⟨_, rfl⟩

/-- A command succeeds exactly as `Completed` says. -/
theorem exec_eq_next_of_completed {i : Instr} {s t : State} (h : Completed i s t) : exec i s = .next t := by
  rcases exec_cases i s with ⟨t', hc, e⟩ | ⟨e', hf, -⟩ | ⟨hs, -⟩
  · have : t = t' := by
      cases i <;> simp only [Completed] at h hc <;> grind
    exact this ▸ e
  · exfalso
    cases i <;> simp only [Failed, Completed] at hf h <;> grind
  · exfalso
    cases i <;> simp only [Completed, Stops] at h hs
    grind

/-- A command ends with the error `e` exactly for one of the causes of `Failed`. -/
theorem exec_eq_raise_iff (i : Instr) (s : State) (e : ErrorCode) :
    exec i s = .next (s.respond (.err e)) ↔ Failed i s e := by
  have inj : ∀ r r' : Response, s.respond r = s.respond r' → r = r' := by
    intro r r' h
    have := congrArg State.resps h
    simpa using this
  constructor
  · intro h
    rcases exec_eq_next h with hc | ⟨e', hf, he⟩
    · obtain ⟨d, hd⟩ := hc.resps
      simp at hd
    · have := inj _ _ he
      simp only [Response.err.injEq] at this
      exact this ▸ hf
  · intro hf
    rcases exec_cases i s with ⟨t, hc, -⟩ | ⟨e', hf', h⟩ | ⟨hs, -⟩
    · exfalso
      cases i <;> simp only [Failed, Completed] at hf hc <;> grind
    · have : e = e' := by
        cases i <;> simp only [Failed] at hf hf' <;> grind
      exact this ▸ h
    · exfalso
      cases i <;> simp only [Failed, Stops] at hf hs
      grind

/-! ## What step can answer -/

theorem step_idle {s : State} (h : s.inputs = []) : step s = .next s := by
  simp [step, State.takeInput, h]

theorem step_reset {s : State} {rest : List Input} (h : s.inputs = .reset :: rest) :
    step s = .next (s.withInputs rest).takeReset := by
  simp [step, State.takeInput, h]

theorem step_resetDuring {s : State} {rest : List Input} {c : Command} (h : s.inputs = .resetDuring c :: rest) :
    step s = .next (s.withInputs rest).takeReset := by
  simp [step, State.takeInput, h]

theorem step_illegal {s : State} {rest : List Input} {c : Command} {why : IllegalWord}
    (h : s.inputs = .command c :: rest) (hd : decode c = .illegal why) :
    step s = .next ((s.withInputs rest).respond (.err .illegalCommand)) := by
  simp [step, State.takeInput, h, hd]

theorem step_command {s : State} {rest : List Input} {c : Command} {i : Instr}
    (h : s.inputs = .command c :: rest) (hd : decode c = .instr i) : step s = exec i (s.withInputs rest) := by
  simp [step, State.takeInput, h, hd]

/-- Everything a step can do. -/
theorem step_cases (s : State) :
    (s.inputs = [] ∧ step s = .next s) ∨
    (∃ x rest, s.inputs = x :: rest ∧ (x = .reset ∨ ∃ c, x = .resetDuring c) ∧
      step s = .next (s.withInputs rest).takeReset) ∨
    (∃ c rest why, s.inputs = .command c :: rest ∧ decode c = .illegal why ∧
      step s = .next ((s.withInputs rest).respond (.err .illegalCommand))) ∨
    (∃ c rest i, s.inputs = .command c :: rest ∧ decode c = .instr i ∧ step s = exec i (s.withInputs rest)) := by
  match h : s.inputs with
  | [] => exact .inl ⟨rfl, step_idle h⟩
  | .reset :: rest => exact .inr (.inl ⟨_, rest, rfl, .inl rfl, step_reset h⟩)
  | .resetDuring c :: rest => exact .inr (.inl ⟨_, rest, rfl, .inr ⟨c, rfl⟩, step_resetDuring h⟩)
  | .command c :: rest =>
    match hd : decode c with
    | .instr i => exact .inr (.inr (.inr ⟨c, rest, i, rfl, hd, step_command h hd⟩))
    | .illegal why => exact .inr (.inr (.inl ⟨c, rest, why, rfl, hd, step_illegal h hd⟩))

end Sys2Proof.Machine
end

