-- ==== Sys2Proof/Laws/PerInstr.lean ====
section
/-! SUPPORT. A law for every command, one lemma per constructor: the fields of its command word. -/

namespace Sys2Proof.Laws.WordFields

/-- The word of a command has `z = 0`, an `op` from 1 to 11, and `t = 1` for LOAD.G alone (30_encoding.md R71, R76). -/
def Statement (i : Instr) : Prop :=
  zField i.word = 0#3 ∧ 1 ≤ (opField i.word).toNat ∧ (opField i.word).toNat ≤ 11 ∧
    (tField i.word = true ↔ ∃ p s0, i = .loadG p s0)

/-- The law from the fields the word is built of. -/
theorem of_fields {i : Instr} {t : Bool} {op : BitVec 4} (hw : i.word = mkWord t op)
    (hop : 1 ≤ op.toNat ∧ op.toNat ≤ 11) (ht : t = true ↔ ∃ p s0, i = .loadG p s0) : Statement i := by
  have h : ∀ (t : Bool) (op : BitVec 4),
      zField (mkWord t op) = 0#3 ∧ opField (mkWord t op) = op ∧ tField (mkWord t op) = t := by decide
  obtain ⟨hz, ho, hf⟩ := h t op
  rw [Statement, hw, hz, ho, hf]
  exact ⟨rfl, hop.1, hop.2, ht⟩

theorem loadF (p s0 : Nat) : Statement (.loadF p s0) := of_fields rfl (by decide) (by simp)
theorem loadG (p s0 : Nat) : Statement (.loadG p s0) := of_fields rfl (by decide) (by simp)
theorem rdstate : Statement .rdstate := of_fields rfl (by decide) (by simp)
theorem rdorder : Statement .rdorder := of_fields rfl (by decide) (by simp)
theorem rdpoly : Statement .rdpoly := of_fields rfl (by decide) (by simp)
theorem rdbit (idx : Nat) : Statement (.rdbit idx) := of_fields rfl (by decide) (by simp)
theorem wrbit (idx v : Nat) : Statement (.wrbit idx v) := of_fields rfl (by decide) (by simp)
theorem round : Statement .round := of_fields rfl (by decide) (by simp)
theorem adv (c : Nat) : Statement (.adv c) := of_fields rfl (by decide) (by simp)
theorem table : Statement .table := of_fields rfl (by decide) (by simp)
theorem tlen : Statement .tlen := of_fields rfl (by decide) (by simp)
theorem tblrd (k : Nat) : Statement (.tblrd k) := of_fields rfl (by decide) (by simp)

end Sys2Proof.Laws.WordFields
end

