-- ==== Sys2Proof/Laws/Run.lean ====
section
/-! SUPPORT. Runs of several steps, one step at a time. -/

namespace Sys2Proof.Machine

theorem run_zero (s : State) : Sys2Proof.core.run 0 s = .next s := rfl

theorem run_zero_eq_next {s s' : State} (h : Sys2Proof.core.run 0 s = .next s') : s = s' :=
  Host.Outcome.next.inj h

/-- The first step of a run that does not stop there. -/
theorem run_succ {k : Nat} {s t : State} (h : step s = .next t) :
    Sys2Proof.core.run (k + 1) s = Sys2Proof.core.run k t := by
  have h' : Sys2Proof.core.step s = .next t := h
  simp only [Host.Core.run, h']

/-- A run that answers a state took its first step. -/
theorem run_succ_eq_next {k : Nat} {s s' : State} (h : Sys2Proof.core.run (k + 1) s = .next s') :
    ∃ t, step s = .next t ∧ Sys2Proof.core.run k t = .next s' := by
  cases hs : step s with
  | next t => exact ⟨t, rfl, by rwa [run_succ hs] at h⟩
  | fault r =>
    have h' : Sys2Proof.core.step s = .fault r := hs
    simp [Host.Core.run, h'] at h
  | refused r =>
    have h' : Sys2Proof.core.step s = .refused r := hs
    simp [Host.Core.run, h'] at h

end Sys2Proof.Machine
end

