-- ==== Sys2Proof/Machine/HostSide.lean ====
section
/-! DEFINITION. What the spec settles on the host's side of the channel: the rendering of a polynomial
(00_scope.md R10) and the assembler's syntax (30_encoding.md R82, R83). Nothing here takes part in a step. Text is a
list of characters. -/

namespace Sys2Proof.HostSide

/-- `x^i`, the exponent in decimal. -/
def power (i : Nat) : List Char := ['x', '^'] ++ Nat.toDigits 10 i

/-- The powers of the set bits of `p` below bit `k`, highest first. -/
def powersBelow : Nat → Nat → List (List Char)
  | 0, _ => []
  | k + 1, p => if p / 2 ^ k % 2 = 1 then power k :: powersBelow k p else powersBelow k p

/-- The terms joined by space, plus, space. -/
def joinPlus : List (List Char) → List Char
  | [] => []
  | [t] => t
  | t :: rest => t ++ [' ', '+', ' '] ++ joinPlus rest

/-- `to_algebraic_string(p)` (00_scope.md R10). The polynomial 0 has no string in any source: a free value
(93_implementation_defined.md U9, log entry 8). -/
def algebraicString (p : Nat) : List Char :=
  if p = 0 then Config.algebraicStringOfZero else joinPlus (powersBelow (p.log2 + 1) p)

/-- A blank of a source line. -/
def isBlank (c : Char) : Bool := c == ' ' || c == '\t' || c == '\r'

/-- A text without the blanks around it. -/
def trim (l : List Char) : List Char := ((l.dropWhile isBlank).reverse.dropWhile isBlank).reverse

/-- The value of a digit in a base up to sixteen. -/
def digitValue (c : Char) : Option Nat :=
  if '0' ≤ c ∧ c ≤ '9' then some (c.toNat - '0'.toNat)
  else if 'a' ≤ c ∧ c ≤ 'f' then some (c.toNat - 'a'.toNat + 10)
  else if 'A' ≤ c ∧ c ≤ 'F' then some (c.toNat - 'A'.toNat + 10)
  else none

/-- Digits of a base read from the left onto what was read before. -/
def digits (base : Nat) : Nat → List Char → Option Nat
  | acc, [] => some acc
  | acc, c :: cs =>
    match digitValue c with
    | some d => if d < base then digits base (acc * base + d) cs else none
    | none => none

/-- A number: "decimal, or binary with the prefix 0b, or hexadecimal with the prefix 0x" (30_encoding.md R82). -/
def number (l : List Char) : Option Nat :=
  match l with
  | [] => none
  | '0' :: 'b' :: c :: cs => digits 2 0 (c :: cs)
  | '0' :: 'x' :: c :: cs => digits 16 0 (c :: cs)
  | c :: cs => digits 10 0 (c :: cs)

/-- The parts of a text between commas. -/
def commaParts : List Char → List (List Char)
  | [] => [[]]
  | c :: cs =>
    if c = ',' then [] :: commaParts cs
    else
      match commaParts cs with
      | [] => [[c]]
      | part :: rest => (c :: part) :: rest

/-- The operands of a line, in the order `a`, `b`, separated by a comma (30_encoding.md R82). -/
def operands (l : List Char) : Option (List Nat) :=
  if trim l = [] then some [] else (commaParts l).mapM (fun part => number (trim part))

/-- Which command a mnemonic with its operands stands for (30_encoding.md R82); `ADV` alone is `ADV 1` (R83 (a)). -/
def command (mnemonic : List Char) (ops : List Nat) : Option Instr :=
  if mnemonic = ['L', 'O', 'A', 'D', '.', 'F'] then (match ops with | [p, s0] => some (.loadF p s0) | _ => none)
  else if mnemonic = ['L', 'O', 'A', 'D', '.', 'G'] then (match ops with | [p, s0] => some (.loadG p s0) | _ => none)
  else if mnemonic = ['R', 'D', 'S', 'T', 'A', 'T', 'E'] then (match ops with | [] => some .rdstate | _ => none)
  else if mnemonic = ['R', 'D', 'O', 'R', 'D', 'E', 'R'] then (match ops with | [] => some .rdorder | _ => none)
  else if mnemonic = ['R', 'D', 'P', 'O', 'L', 'Y'] then (match ops with | [] => some .rdpoly | _ => none)
  else if mnemonic = ['R', 'D', 'B', 'I', 'T'] then (match ops with | [idx] => some (.rdbit idx) | _ => none)
  else if mnemonic = ['W', 'R', 'B', 'I', 'T'] then (match ops with | [idx, v] => some (.wrbit idx v) | _ => none)
  else if mnemonic = ['R', 'O', 'U', 'N', 'D'] then (match ops with | [] => some .round | _ => none)
  else if mnemonic = ['A', 'D', 'V'] then (match ops with | [] => some (.adv 1) | [c] => some (.adv c) | _ => none)
  else if mnemonic = ['T', 'A', 'B', 'L', 'E'] then (match ops with | [] => some .table | _ => none)
  else if mnemonic = ['T', 'L', 'E', 'N'] then (match ops with | [] => some .tlen | _ => none)
  else if mnemonic = ['T', 'B', 'L', 'R', 'D'] then (match ops with | [k] => some (.tblrd k) | _ => none)
  else none

/-- The indexed forms `R[i]` and `R[i] = v` (30_encoding.md R83 (b), (c)), from the text after `R[`. -/
def indexedForm (l : List Char) : Option Instr :=
  match number (trim (l.takeWhile (· != ']'))), l.dropWhile (· != ']') with
  | some idx, _ :: after =>
    match trim after with
    | [] => some (.rdbit idx)
    | '=' :: value => (number (trim value)).map (Instr.wrbit idx)
    | _ => none
  | _, _ => none

/-- What a source line is. -/
inductive Line where
  | empty                 -- blank, or a comment alone
  | command (i : Instr)
  | error                 -- not a line of the syntax
deriving DecidableEq, Repr

/-- One line of source: "one command per line", "text after ; is a comment" (30_encoding.md R82). -/
def assembleLine (source : List Char) : Line :=
  match trim (source.takeWhile (· != ';')) with
  | [] => .empty
  | 'R' :: '[' :: rest => ((indexedForm rest).map Line.command).getD .error
  | text =>
    match operands (text.dropWhile (fun c => !isBlank c)) with
    | some ops => ((command (text.takeWhile (fun c => !isBlank c)) ops).map Line.command).getD .error
    | none => .error

end Sys2Proof.HostSide
end

