-- ==== Sys2Proof/Tests/Slice0.lean ====
section
/-! SUPPORT. Tests of the model against the spec's own vectors (95_test_vectors.md and the worked examples of the
rules), and a witness for the hypotheses of every statement of Certificates/Slice0/Obligations.lean. -/

namespace Sys2Proof.Tests

open Sys2Proof Sys2Proof.Machine Sys2Proof.Safety

/-! ## Small states -/

/-- After `LOAD.F 0b10011, 0b1010` (95_test_vectors.md section 2). -/
def fib : State := { State.reset with valid := true, topo := .fibonacci, poly := 0b10011, order := 4, state := 0b1010 }

/-- After `LOAD.G 0b10011, 0b1010`. -/
def gal : State := { fib with topo := .galois }

/-- After steps 1 to 5 of program 1 (95_test_vectors.md section 10): the table of the Galois register at `0001`. -/
def galTable : State := { gal with state := 0b0001, tvalid := true, tlen := 3, tbl := [0b0001, 0b0011, 0b0010] }

/-- After `LOAD.F 1, 0`, the zero-width register. -/
def zeroWidth : State := { State.reset with valid := true, poly := 1 }

/-- No run reaches it: the table of a register that does not close within the bound (60_exceptions.md R187). -/
def unclosed : State := { State.reset with valid := true, topo := .galois, poly := 1, order := 0, state := 4 }

/-- A block of NMAX 4: ports of 5 bits. -/
def four : Config.NMax := .finite 4 (by decide)

/-- The state with one command presented. -/
def State.given (s : State) (w : CmdWord) (a b : Nat) : State := { s with inputs := [.command ⟨w, a, b⟩] }

/-- The state one step later, if the step answers one. -/
def after (s : State) (w : CmdWord) (a b : Nat) : Option State :=
  match step (State.given s w a b) with
  | .next t => some t
  | .fault _ => none
  | .refused _ => none

/-- The response to a command. -/
def response (s : State) (w : CmdWord) (a b : Nat) : Option Response := (after s w a b).bind (·.resps.getLast?)

/-! ## Decoding: words written out from 30_encoding.md R76, the examples of R84, and illegal words -/

theorem test_decode_loadF : decode ⟨0b00000001#8, 19, 10⟩ = .instr (.loadF 19 10) := by decide
theorem test_decode_loadG : decode ⟨0b00010001#8, 0b10011, 0b1010⟩ = .instr (.loadG 19 10) := by decide
theorem test_decode_rdstate : decode ⟨0b00000010#8, 7, 9⟩ = .instr .rdstate := by decide
theorem test_decode_rdorder : decode ⟨0b00000011#8, 7, 9⟩ = .instr .rdorder := by decide
theorem test_decode_rdpoly : decode ⟨0b00000100#8, 7, 9⟩ = .instr .rdpoly := by decide
theorem test_decode_rdbit : decode ⟨0b00000101#8, 7, 9⟩ = .instr (.rdbit 7) := by decide
theorem test_decode_wrbit : decode ⟨0b00000110#8, 5, 1⟩ = .instr (.wrbit 5 1) := by decide
theorem test_decode_round : decode ⟨0b00000111#8, 12345, 678⟩ = .instr .round := by decide
theorem test_decode_adv : decode ⟨0b00001000#8, 1, 0⟩ = .instr (.adv 1) := by decide
theorem test_decode_table : decode ⟨0b00001001#8, 7, 9⟩ = .instr .table := by decide
theorem test_decode_tlen : decode ⟨0b00001010#8, 7, 9⟩ = .instr .tlen := by decide
theorem test_decode_tblrd : decode ⟨0b00001011#8, 7, 9⟩ = .instr (.tblrd 7) := by decide

theorem test_decode_illegal :
    decode ⟨0x17#8, 0, 0⟩ = .illegal .topologyBitSet ∧ decode ⟨0x10#8, 0, 0⟩ = .illegal .topologyBitSet ∧
    decode ⟨0x00#8, 0, 0⟩ = .illegal .noSuchOp ∧ decode ⟨0x0C#8, 0, 0⟩ = .illegal .noSuchOp ∧
    decode ⟨0x0F#8, 0, 0⟩ = .illegal .noSuchOp ∧ decode ⟨0x20#8, 0, 0⟩ = .illegal .upperBitsSet ∧
    decode ⟨0x21#8, 0, 0⟩ = .illegal .upperBitsSet ∧ decode ⟨0xFF#8, 0, 0⟩ = .illegal .upperBitsSet := by decide

theorem test_encode_words :
    encode (.loadG 19 10) = ⟨0x11#8, 19, 10⟩ ∧ encode (.wrbit 5 1) = ⟨0x06#8, 5, 1⟩ ∧
    encode (.adv 1) = ⟨0x08#8, 1, 0⟩ ∧ encode .tlen = ⟨0x0A#8, 0, 0⟩ := by decide

theorem test_decodeTableWord :
    decodeTableWord 8 0x11 = some (.loadG 0 0) ∧ decodeTableWord 8 0x0B = some (.tblrd 0) ∧
    decodeTableWord 8 0x31 = none := by decide

/-! ## WellFormed: what does not fit the 5-bit ports of a block of NMAX 4 is refused, check by check -/

theorem test_wf_command : Command.fits four ⟨0#8, 31, 31⟩ = true ∧ Command.fits four ⟨0#8, 32, 0⟩ = false ∧
    Command.fits four ⟨0#8, 0, 32⟩ = false := by decide
theorem test_wf_load : (Instr.loadF 31 31).wellFormed four = true ∧ (Instr.loadF 32 0).wellFormed four = false ∧
    (Instr.loadF 0 32).wellFormed four = false ∧ (Instr.loadG 32 0).wellFormed four = false ∧
    (Instr.loadG 0 32).wellFormed four = false := by decide
theorem test_wf_bits : (Instr.rdbit 32).wellFormed four = false ∧ (Instr.wrbit 32 0).wellFormed four = false ∧
    (Instr.wrbit 0 32).wellFormed four = false ∧ (Instr.wrbit 31 31).wellFormed four = true := by decide
theorem test_wf_counts : (Instr.adv 32).wellFormed four = false ∧ (Instr.tblrd 32).wellFormed four = false ∧
    (Instr.adv 32).wellFormed .unbounded = true := by decide

/-! ## Construction and views (95_test_vectors.md sections 2 and 8) -/

theorem test_loadF : after State.reset 0x01 19 10 = some { fib with resps := [.ok 0] } := by decide
theorem test_loadF_errors :
    response State.reset 0x01 0 99 = some (.err .invalidPolynomial) ∧
    response State.reset 0x01 19 16 = some (.err .invalidState) ∧
    response State.reset 0x01 1 1 = some (.err .invalidState) ∧
    after State.reset 0x01 1 0 = some { zeroWidth with resps := [.ok 0] } := by decide
theorem test_loadG : after galTable 0x11 19 10 =
    some { gal with tlen := 3, tbl := [1, 3, 2], resps := [.ok 0] } := by decide
theorem test_loadG_errors :
    after galTable 0x11 0 5 = some { galTable with resps := [.err .invalidPolynomial] } ∧
    after galTable 0x11 2 2 = some { galTable with resps := [.err .invalidState] } ∧
    (after galTable 0x11 2 1).map (·.order) = some 1 := by decide
theorem test_rdstate : response fib 0x02 0 0 = some (.ok 10) ∧
    response State.reset 0x02 0 0 = some (.err .notConstructed) := by decide
theorem test_rdorder : response fib 0x03 0 0 = some (.ok 4) ∧
    response State.reset 0x03 0 0 = some (.err .notConstructed) := by decide
theorem test_rdpoly : response fib 0x04 0 0 = some (.ok 19) ∧
    response State.reset 0x04 0 0 = some (.err .notConstructed) := by decide

/-! ## Bit access (section 3) -/

theorem test_rdbit : response fib 0x05 0 0 = some (.ok 0) ∧ response fib 0x05 3 999 = some (.ok 1) ∧
    response fib 0x05 4 0 = some (.err .indexOutOfRange) ∧
    response zeroWidth 0x05 0 0 = some (.err .indexOutOfRange) ∧
    response State.reset 0x05 0 0 = some (.err .notConstructed) := by decide
theorem test_wrbit : (after fib 0x06 0 1).map (·.state) = some 0b1011 ∧
    (after fib 0x06 3 0).map (·.state) = some 0b0010 ∧ (after fib 0x06 3 1).map (·.state) = some 0b1010 ∧
    response fib 0x06 0 1 = some (.ok 0) := by decide
theorem test_wrbit_errors : response fib 0x06 5 1 = some (.err .indexOutOfRange) ∧
    response fib 0x06 2 2 = some (.err .invalidBitValue) ∧ response fib 0x06 2 3 = some (.err .invalidBitValue) ∧
    response fib 0x06 5 2 = some (.err .indexOutOfRange) ∧
    response State.reset 0x06 0 7 = some (.err .notConstructed) := by decide

/-! ## Rounds (sections 4, 5 and 6) -/

theorem test_fib_rounds : (List.range 16).map (fibRound 4 0b10011) =
    [0b0000, 0b1000, 0b1001, 0b0001, 0b0010, 0b1010, 0b1011, 0b0011,
     0b0100, 0b1100, 0b1101, 0b0101, 0b0110, 0b1110, 0b1111, 0b0111] := by decide
theorem test_gal_rounds : (List.range 16).map (galRound 4 0b10011) =
    [0b0000, 0b0011, 0b0001, 0b0010, 0b0010, 0b0001, 0b0011, 0b0000,
     0b0100, 0b0111, 0b0101, 0b0110, 0b0110, 0b0101, 0b0111, 0b0100] := by decide
theorem test_wide_rounds : fibRound 8 0x11D 0xFF = 0x7F ∧ galRound 8 0x11D 0xFF = 0x62 ∧
    fibRound 8 0x11D 0x01 = 0x80 ∧ galRound 8 0x11D 0x01 = 0x1D ∧ galRound 8 0x187 0x01 = 0x87 := by decide
theorem test_round : response fib 0x07 12345 678 = some (.ok 13) ∧ response gal 0x07 0 0 = some (.ok 5) ∧
    (after gal 0x07 0 0).map (·.state) = some 5 ∧ response zeroWidth 0x07 0 0 = some (.ok 0) ∧
    response State.reset 0x07 0 0 = some (.err .notConstructed) := by decide
theorem test_adv : response fib 0x08 3 0 = some (.ok 15) ∧ response gal 0x08 4 0 = some (.ok 2) ∧
    response fib 0x08 0 0 = some (.ok 10) ∧ (after fib 0x08 4 0).map (·.state) = some 7 ∧
    response State.reset 0x08 0 0 = some (.err .notConstructed) := by decide

/-! ## The state table (sections 7, 8 and 10) -/

theorem test_table_fib : (after fib 0x09 0 0).map (fun t => (t.tbl, t.tlen, t.tvalid, t.state)) =
    some ([0b1010, 0b1101, 0b1110, 0b1111, 0b0111, 0b0011, 0b0001, 0b1000,
      0b0100, 0b0010, 0b1001, 0b1100, 0b0110, 0b1011, 0b0101], 15, true, 0b1010) := by decide
theorem test_table_gal : (after gal 0x09 0 0).map (·.tbl) = some [0b1010, 0b0101, 0b0001, 0b0011, 0b0010] ∧
    response gal 0x09 0 0 = some (.ok 5) ∧ (after zeroWidth 0x09 0 0).map (·.tbl) = some [0] ∧
    response State.reset 0x09 0 0 = some (.err .notConstructed) := by decide
theorem test_state_tables :
    stateTable .fibonacci 4 0b10010 0b0011 = some [0b0011, 0b1001, 0b0100, 0b0010] ∧
    stateTable .fibonacci 1 0b10 1 = some [1, 0] ∧ stateTable .galois 3 0b1011 1 = some [1, 3, 2] ∧
    stateTable .galois 5 0b111111 0b10101 = some [0b10101] := by decide
theorem test_tlen : response galTable 0x0A 0 0 = some (.ok 3) ∧ response fib 0x0A 0 0 = some (.err .noTable) ∧
    response State.reset 0x0A 0 0 = some (.err .notConstructed) := by decide
theorem test_tblrd : response galTable 0x0B 0 0 = some (.ok 1) ∧ response galTable 0x0B 2 0 = some (.ok 2) ∧
    response galTable 0x0B 3 0 = some (.err .tableIndexOutOfRange) ∧
    response fib 0x0B 999 0 = some (.err .noTable) ∧
    response State.reset 0x0B 0 0 = some (.err .notConstructed) := by decide

/-! ## The machine around the commands -/

/-- 60_exceptions.md R190: an illegal word, in the reset state too. -/
theorem test_illegal : after State.reset 0x00 1 2 = some { State.reset with resps := [.err .illegalCommand] } ∧
    after galTable 0x17 0 0 = some { galTable with resps := [.err .illegalCommand] } := by decide

/-- The first step from reset runs the word that withFetchWord places. -/
theorem test_first_step :
    step (State.reset.withFetchWord 8 0x01) = .next { State.reset with resps := [.err .invalidPolynomial] } ∧
    step (State.reset.withFetchWord 8 0x0B) = .next { State.reset with resps := [.err .notConstructed] } ∧
    step State.reset = .next State.reset := ⟨rfl, rfl, rfl⟩

/-- 70_reset_and_hazards.md R210 and R213: `rst` between commands, and while a command is being performed. -/
theorem test_reset_input :
    step { galTable with inputs := [.reset] } = .next State.reset ∧
    step { galTable with inputs := [.resetDuring ⟨0x07#8, 0, 0⟩, .command ⟨0x02#8, 0, 0⟩], resps := [.ok 3] } =
      .next { State.reset with inputs := [.command ⟨0x02#8, 0, 0⟩], resps := [.ok 3] } := ⟨rfl, rfl⟩

/-- 30_encoding.md R74: the wires of a response. -/
theorem test_wires : (Response.ok 5).status = 0 ∧ (Response.ok 5).data = 5 ∧
    (Response.err .tableIndexOutOfRange).status = 9 ∧ (Response.err .tableIndexOutOfRange).data = 0 := by decide

/-! ## The host's side (00_scope.md R10; 30_encoding.md R82 to R84) -/

theorem test_algebraic_string : HostSide.algebraicString 0b10011 = "x^4 + x^1 + x^0".toList := by decide
theorem test_assemble_example : HostSide.assembleLine "LOAD.G 0b10011, 0b1010".toList = .command (.loadG 19 10) ∧
    HostSide.assembleLine "ADV     ; one".toList = .command (.adv 1) ∧
    HostSide.assembleLine "WRBIT 5, 1".toList = .command (.wrbit 5 1) := by decide
theorem test_assemble_indexed : HostSide.assembleLine "R[3]".toList = .command (.rdbit 3) ∧
    HostSide.assembleLine "R[3] = 0x1".toList = .command (.wrbit 3 1) ∧
    HostSide.assembleLine "; text".toList = .empty ∧
    HostSide.assembleLine "ROUND 1".toList = .error := by decide

/-! ## Witnesses: concrete states and operands that meet the hypotheses of each statement, clause by clause -/

/-- The state of program 1 after its TABLE meets the invariant, with a register and a table. -/
theorem galTable_inv : StateInv galTable where
  memory := by decide
  registers := fun _ => by decide
  tables := fun _ => by
    refine ⟨by decide, by decide, by decide, by decide, by decide, ?_, ?_⟩
    · intro k hk
      have hk : k + 1 < 3 := hk
      have hk : k < 2 := by omega
      interval_cases k <;> decide
    · intro x hx
      obtain rfl : 2 = x := by simpa [galTable, State.memRead] using hx
      decide

theorem fib_inv : StateInv fib where
  memory := by decide
  registers := fun _ => by decide
  tables := fun h => by simp [fib, State.reset] at h

theorem zeroWidth_inv : StateInv zeroWidth where
  memory := by decide
  registers := fun _ => by decide
  tables := fun h => by simp [zeroWidth, State.reset] at h

/-- The invariant says nothing about the channels. -/
theorem galTable_given_inv (w : CmdWord) (a b : Nat) : StateInv (State.given galTable w a b) :=
  ⟨galTable_inv.memory, galTable_inv.registers, galTable_inv.tables⟩

theorem galTable_fits : Fits four (State.given galTable 0x07 31 31) where
  poly := fun _ => by decide
  order := fun _ => by decide
  state := fun _ => by decide
  tlen := fun _ => by decide
  tbl := fun _ => by decide
  inputs := fun c h => by
    obtain rfl : c = ⟨0x07, 31, 31⟩ := by simpa [State.given] using h
    decide
  resps := by decide

/-- Other values in the registers that hold no value after reset. -/
def noisyReset : State :=
  { State.reset with topo := .galois, poly := 7, order := 2, state := 3, tlen := 2, tbl := [1, 5, 6] }

theorem noisyReset_same (w : CmdWord) : SameToHost (State.given State.reset w 19 10) (State.given noisyReset w 19 10) where
  valid := rfl
  tvalid := rfl
  inputs := rfl
  resps := rfl
  registers := fun h => by simp [State.given, State.reset] at h
  tables := fun h => by simp [State.given, State.reset] at h

theorem witness_DecodingByFields :
    ((0x20#8).toNat = 1 * 32 + 0 * 16 + 0 ∧ (1 : Nat) ≠ 0) ∧ ((0xFF#8).toNat = 7 * 32 + 1 * 16 + 15) ∧
    (0x01#8).toNat = 0 * 32 + 0 * 16 + 1 ∧ (0x11#8).toNat = 0 * 32 + 1 * 16 + 1 ∧
    ((0x10#8).toNat = 0 * 32 + 1 * 16 + 0 ∧ (0x12#8).toNat = 0 * 32 + 1 * 16 + 2) ∧
    ((0x02#8).toNat = 0 * 32 + 0 * 16 + 2 ∧ (0x0B#8).toNat = 0 * 32 + 0 * 16 + 11) ∧
    ((0x00#8).toNat = 0 * 32 + 0 * 16 + 0 ∧ (0x0C#8).toNat = 0 * 32 + 0 * 16 + 12 ∧
      (0x0F#8).toNat = 0 * 32 + 0 * 16 + 15) := by decide

theorem witness_DecodeEncodeAgree :
    (0x05#8 = (encode (.rdbit 3)).cmd ∧ ((Instr.rdbit 3).readsA = true → 3 = (encode (.rdbit 3)).a) ∧
      ((Instr.rdbit 3).readsB = true → 999 = (encode (.rdbit 3)).b)) := by decide

theorem witness_IllegalWordsCounted :
    (State.given fib 0x17 1 2).inputs = .command ⟨0x17#8, 1, 2⟩ :: [] ∧
    decode ⟨0x17#8, 1, 2⟩ = .illegal .topologyBitSet := by decide

theorem witness_IgnoredOperandsHaveNoEffect :
    0x0A#8 ∈ [0x02#8, 0x03#8, 0x04#8, 0x07#8, 0x09#8, 0x0A#8] ∧ 0x0B#8 ∈ [0x05#8, 0x08#8, 0x0B#8] := by decide

theorem witness_StepRunsTheDecodedCommand :
    (State.given fib 0x08 3 0).inputs = .command ⟨0x08#8, 3, 0⟩ :: [] ∧
    decode ⟨0x08#8, 3, 0⟩ = .instr (.adv 3) := by decide

theorem witness_IdleBlockHoldsItsState : fib.inputs = [] := by decide

theorem witness_ResetEventClearsTheFlags :
    ({ galTable with inputs := [.reset] } : State).inputs = .reset :: [] ∧
    ({ galTable with inputs := [.resetDuring ⟨0x07#8, 0, 0⟩] } : State).inputs =
      .resetDuring ⟨0x07#8, 0, 0⟩ :: [] := by decide

theorem witness_OneResponsePerCommand :
    (State.given fib 0x07 0 0).inputs = .command ⟨0x07#8, 0, 0⟩ :: [] ∧
    step (State.given fib 0x07 0 0) = .next { fib with state := 13, resps := [.ok 13] } := ⟨rfl, rfl⟩

theorem witness_ErrorsChangeNothing :
    (State.given fib 0x06 5 2).inputs = .command ⟨0x06#8, 5, 2⟩ :: [] ∧
    step (State.given fib 0x06 5 2) = .next { fib with resps := [.err .indexOutOfRange] } ∧
    ({ fib with resps := [.err .indexOutOfRange] } : State).resps =
      (State.given fib 0x06 5 2).resps ++ [.err .indexOutOfRange] := ⟨rfl, rfl, rfl⟩

theorem witness_InvalidPolynomialCause :
    Raises (.loadF 0 99) State.reset .invalidPolynomial ∧ Raises (.loadG 0 0) galTable .invalidPolynomial :=
  ⟨rfl, rfl⟩

theorem witness_InvalidStateCause :
    (2 ^ 4 ≤ 16 ∧ 16 < 2 ^ (4 + 1) ∧ 2 ^ 4 ≤ 16) ∧ Raises (.loadF 16 16) State.reset .invalidState ∧
    Raises (.loadG 31 16) State.reset .invalidState ∧ Raises (.loadF 1 1) State.reset .invalidState :=
  ⟨by decide, rfl, rfl, rfl⟩

theorem witness_IndexOutOfRangeCause :
    fib.valid = true ∧ fib.order ≤ 4 ∧ Raises (.rdbit 4) fib .indexOutOfRange ∧
    Raises (.wrbit 4 2) fib .indexOutOfRange := ⟨rfl, by decide, rfl, rfl⟩

theorem witness_InvalidBitValueCause :
    fib.valid = true ∧ 3 < fib.order ∧ Raises (.wrbit 3 2) fib .invalidBitValue := ⟨rfl, by decide, rfl⟩

theorem witness_CycleNotFoundCause :
    unclosed.valid = true ∧ Raises .table unclosed .cycleNotFound ∧ StateInv galTable :=
  ⟨rfl, rfl, galTable_inv⟩

theorem witness_NotConstructedCause :
    State.reset.valid = false ∧ Raises .rdstate State.reset .notConstructed ∧
    Raises (.wrbit 0 7) State.reset .notConstructed ∧ Raises (.tblrd 0) State.reset .notConstructed :=
  ⟨rfl, rfl, rfl, rfl⟩

theorem witness_NoTableCause :
    fib.valid = true ∧ fib.tvalid = false ∧ Raises .tlen fib .noTable ∧ Raises (.tblrd 999) fib .noTable :=
  ⟨rfl, rfl, rfl, rfl⟩

theorem witness_TableIndexOutOfRangeCause :
    galTable.valid = true ∧ galTable.tvalid = true ∧ galTable.tlen ≤ 3 ∧
    Raises (.tblrd 3) galTable .tableIndexOutOfRange := ⟨rfl, rfl, by decide, rfl⟩

theorem witness_IllegalCommandCause :
    (State.given State.reset 0x0C 1 2).inputs = .command ⟨0x0C#8, 1, 2⟩ :: [] ∧
    step (State.given State.reset 0x0C 1 2) = .next { State.reset with resps := [.err .illegalCommand] } := ⟨rfl, rfl⟩

theorem witness_ErrorMatrix :
    Raises (.wrbit 3 2) fib .invalidBitValue ∧ ErrorCode.invalidBitValue ∈ canRaise (.wrbit 3 2) ∧
    ErrorCode.invalidBitValue ≠ .cycleNotFound := ⟨rfl, by decide, by decide⟩

theorem witness_LoadFConstructs :
    (2 ^ 4 ≤ 16 ∧ 16 < 2 ^ (4 + 1) ∧ 15 < 2 ^ 4) ∧ (2 ^ 4 ≤ 31 ∧ 31 < 2 ^ (4 + 1) ∧ 0 < 2 ^ 4) ∧
    (2 ^ 0 ≤ 1 ∧ 1 < 2 ^ (0 + 1) ∧ 0 < 2 ^ 0) ∧ (2 ^ 4 ≤ 16 ∧ 16 < 2 ^ (4 + 1) ∧ 2 ^ 4 ≤ 16) := by decide

theorem witness_LoadGConstructs :
    (2 ^ 1 ≤ 2 ∧ 2 < 2 ^ (1 + 1) ∧ 1 < 2 ^ 1) ∧ (2 ^ 1 ≤ 3 ∧ 3 < 2 ^ (1 + 1) ∧ 2 ^ 1 ≤ 2) := by decide

theorem witness_FieldOrderIsTheDegree :
    four.fitsPort 31 = true ∧ fieldOrder 31 = some 4 ∧ fieldOrder 1 = some 0 := by decide

theorem witness_ZeroWidthRegister :
    1 ≤ 1 ∧ zeroWidth.valid = true ∧ zeroWidth.order = 0 ∧ zeroWidth.poly = 1 ∧ zeroWidth.state = 0 := by decide

theorem witness_ViewsReturnTheRegisters :
    galTable.valid = true ∧ StateInv galTable ∧ zeroWidth.valid = true ∧ StateInv zeroWidth ∧
    zeroWidth.order = 0 ∧ zeroWidth.poly = 1 := ⟨rfl, galTable_inv, rfl, zeroWidth_inv, rfl, rfl⟩

theorem witness_ReadBit :
    fib.valid = true ∧ 3 < fib.order ∧ fib.order ≤ 4 ∧ zeroWidth.valid = true ∧ zeroWidth.order ≤ 0 := by decide

theorem witness_WriteBit :
    fib.valid = true ∧ (3 < fib.order ∧ 1 < 2) ∧ fib.state < 2 ^ fib.order ∧ fib.order ≤ 4 ∧
    (3 < fib.order ∧ 2 ≤ 2) := by decide

theorem witness_ReadAfterWriteBit :
    fib.valid = true ∧ 3 < fib.order ∧ 1 < 2 ∧ 0 < fib.order ∧ 0 ≠ 3 := by decide

theorem witness_FibonacciRoundBits :
    (1 ≤ 4 ∧ 2 ^ 4 ≤ 31 ∧ 31 < 2 ^ (4 + 1) ∧ 15 < 2 ^ 4 ∧ 2 + 2 ≤ 4) ∧
    (1 ≤ 1 ∧ 2 ^ 1 ≤ 3 ∧ 3 < 2 ^ (1 + 1) ∧ 1 < 2 ^ 1) := by decide

theorem witness_GaloisRoundBits :
    (1 ≤ 4 ∧ 2 ^ 4 ≤ 19 ∧ 19 < 2 ^ (4 + 1) ∧ 15 < 2 ^ 4 ∧ 2 + 2 ≤ 4) ∧
    (1 ≤ 1 ∧ 2 ^ 1 ≤ 3 ∧ 3 < 2 ^ (1 + 1) ∧ 1 < 2 ^ 1) := by decide

theorem witness_RoundsAreLinear : 15 < 2 ^ 4 ∧ 6 < 2 ^ 4 := by decide

theorem witness_FibonacciBijectiveIffConstantTerm :
    (1 ≤ 4 ∧ 2 ^ 4 ≤ 19 ∧ 19 < 2 ^ (4 + 1) ∧ 19 % 2 = 1) ∧
    (1 ≤ 4 ∧ 2 ^ 4 ≤ 18 ∧ 18 < 2 ^ (4 + 1) ∧ ¬18 % 2 = 1) := by decide

theorem witness_GaloisBijectiveIffTopTap :
    (1 ≤ 4 ∧ 2 ^ 4 ≤ 25 ∧ 25 < 2 ^ (4 + 1) ∧ 25 / 2 ^ (4 - 1) % 2 = 1) ∧
    (1 ≤ 4 ∧ 2 ^ 4 ≤ 19 ∧ 19 < 2 ^ (4 + 1) ∧ ¬19 / 2 ^ (4 - 1) % 2 = 1) := by decide

theorem witness_DegreeBitIsNoTap :
    (∀ i, i < 4 → 0b10011 / 2 ^ i % 2 = 0b00011 / 2 ^ i % 2) ∧ 15 < 2 ^ 4 := by decide

theorem witness_NoTapsShiftOnly : 15 < 2 ^ 4 := by decide

theorem witness_RoundCompletes :
    (fib.valid = true ∧ fib.topo = .fibonacci) ∧ (gal.valid = true ∧ gal.topo = .galois) := by decide

theorem witness_AdvCompletes :
    gal.valid = true ∧ galRound 4 19 = roundTopo gal.topo gal.order gal.poly := ⟨rfl, rfl⟩

theorem witness_AdvIsRepeatedRound : fib.valid = true := by decide

theorem witness_ZeroStateLocksUp :
    ({ fib with state := 0 } : State).valid = true ∧ ({ fib with state := 0 } : State).state = 0 := by decide

theorem witness_StateTableDefinition :
    galRound 4 19 = roundTopo .galois 4 19 ∧ stateTable .galois 4 19 1 = some [1, 3, 2] := ⟨rfl, rfl⟩

theorem witness_TableCompletes :
    StateInv galTable ∧ galTable.valid = true ∧ StateInv zeroWidth ∧ zeroWidth.valid = true :=
  ⟨galTable_inv, rfl, zeroWidth_inv, rfl⟩

theorem witness_TableNeverAnswersFromTheBuffer : RegisterInv galTable ∧ galTable.valid = true :=
  ⟨galTable_inv.registers, rfl⟩

theorem witness_TableLeavesTheRegisters :
    exec .table gal = .next { gal with
      tbl := [10, 5, 1, 3, 2], tlen := 5, tvalid := true, resps := [.ok 5] } := rfl

theorem witness_TlenReturnsTheLength :
    (galTable.valid = true ∧ galTable.tvalid = true ∧ StateInv galTable) ∧ fib.valid = true ∧ fib.tvalid = false :=
  ⟨⟨rfl, rfl, galTable_inv⟩, rfl, rfl⟩

theorem witness_TblrdReturnsTheEntry :
    (galTable.valid = true ∧ Memory.wf galTable = true ∧ galTable.tvalid = true ∧ 2 < galTable.tlen) ∧
    (fib.valid = true ∧ Memory.wf fib = true ∧ fib.tvalid = false) ∧ galTable.tlen ≤ 3 := by decide

theorem witness_ReadingCommandsFrame :
    exec (.tblrd 2) galTable = .next { galTable with resps := [.ok 2] } ∧
    exec .rdorder galTable = .next { galTable with resps := [.ok 4] } ∧
    exec (.rdbit 0) galTable = .next { galTable with resps := [.ok 1] } := ⟨rfl, rfl, rfl⟩

theorem witness_StateWritingCommandsFrame :
    exec .round galTable = .next { galTable with state := 3, resps := [.ok 3] } ∧
    exec (.adv 2) galTable = .next { galTable with state := 2, resps := [.ok 2] } ∧
    exec (.wrbit 3 1) galTable = .next { galTable with state := 9, resps := [.ok 0] } := ⟨rfl, rfl, rfl⟩

theorem witness_ConstructionFrame :
    exec (.loadF 19 10) galTable = .next { galTable with
      topo := .fibonacci, state := 10, tvalid := false, resps := [.ok 0] } ∧
    exec (.loadG 0 10) galTable = .next { galTable with resps := [.err .invalidPolynomial] } := ⟨rfl, rfl⟩

theorem witness_WhoWritesEachRegister :
    exec (.loadG 19 10) State.reset = .next { gal with resps := [.ok 0] } ∧ gal.valid ≠ State.reset.valid ∧
    gal.topo ≠ State.reset.topo ∧ gal.state ≠ State.reset.state ∧
    exec .table fib = .next { fib with
      tbl := [10, 13, 14, 15, 7, 3, 1, 8, 4, 2, 9, 12, 6, 11, 5], tlen := 15, tvalid := true, resps := [.ok 15] } ∧
    true ≠ fib.tvalid ∧ 15 ≠ fib.tlen := ⟨rfl, by decide, by decide, by decide, rfl, by decide, by decide⟩

theorem witness_StepKeepsTheInvariant :
    StateInv (State.given galTable 0x07 31 31) ∧
    step (State.given galTable 0x07 31 31) = .next { galTable with state := 3, resps := [.ok 3] } :=
  ⟨galTable_given_inv _ _ _, rfl⟩

theorem witness_StepKeepsTheWidths :
    StateInv (State.given galTable 0x07 31 31) ∧ Fits four (State.given galTable 0x07 31 31) ∧
    step (State.given galTable 0x07 31 31) = .next { galTable with state := 3, resps := [.ok 3] } :=
  ⟨galTable_given_inv _ _ _, galTable_fits, rfl⟩

theorem witness_StepNeverStops : StateInv (State.given galTable 0x0B 2 0) ∧ StateInv fib :=
  ⟨galTable_given_inv _ _ _, fib_inv⟩

theorem witness_ValuelessRegistersUnobserved :
    SameToHost (State.given State.reset 0x01 19 10) (State.given noisyReset 0x01 19 10) ∧
    step (State.given State.reset 0x01 19 10) = .next { fib with resps := [.ok 0] } := ⟨noisyReset_same _, rfl⟩

theorem witness_SameInputsSameResponses :
    State.reset.valid = false ∧ State.reset.tvalid = false ∧ noisyReset.valid = false ∧ noisyReset.tvalid = false ∧
    (State.given noisyReset 0x01 19 10).inputs = (State.given State.reset 0x01 19 10).inputs ∧
    noisyReset.resps = State.reset.resps ∧
    Sys2Proof.core.run 1 (State.given State.reset 0x01 19 10) = .next { fib with resps := [.ok 0] } ∧
    Sys2Proof.core.run 2 { State.reset with inputs := [.command ⟨0x11#8, 19, 1⟩, .command ⟨0x09#8, 0, 0⟩] } =
      .next { galTable with resps := [.ok 0, .ok 3] } ∧ galTable.valid = true ∧ galTable.tvalid = true :=
  ⟨rfl, rfl, rfl, rfl, rfl, rfl, rfl, rfl, rfl, rfl⟩

end Sys2Proof.Tests
end

section
/-! PROOFS of the encoding family (30_encoding.md): which words are commands, which command each one selects, and what
the operands and the statuses can do. -/

namespace Sys2Proof

open Sys2Proof.Machine

/-! ## The decoder: the word selects the command, the ports give its operands -/

@[simp] theorem Instr.word_withPorts (i : Instr) (a b : Nat) : (i.withPorts a b).word = i.word := by
  cases i <;> rfl

/-- A command is decoded exactly when its word is presented with its operands on the ports it reads. -/
theorem decode_eq_instr_iff (c : Command) (i : Instr) :
    decode c = .instr i ↔ c.cmd = i.word ∧ i.withPorts c.a c.b = i := by
  obtain ⟨w, a, b⟩ := c
  constructor
  · intro h
    rw [decode_withPorts] at h
    cases hz : decode ⟨w, 0, 0⟩ with
    | illegal why => simp [hz, Decoded.withPorts] at h
    | instr j =>
      have hj : j.withPorts a b = i := by simpa [hz, Decoded.withPorts] using h
      have hi : i.withPorts a b = i := by subst hj; cases j <;> rfl
      exact ⟨by rw [← word_of_decode_zero w j hz, ← hj, Instr.word_withPorts], hi⟩
  · rintro ⟨hw, hi⟩
    simp only at hw hi
    rw [hw, decode_word, hi]

theorem decode_eq_instr_iff_word {i : Instr} {w : CmdWord} {a b : Nat} (h : i.withPorts a b = i) :
    decode ⟨w, a, b⟩ = .instr i ↔ w = i.word :=
  (decode_eq_instr_iff ⟨w, a, b⟩ i).trans (and_iff_left h)

/-- The words that are commands, as numbers: 1 to 11, and 17 (LOAD.G). -/
theorem decode_isSome_iff (w : CmdWord) (a b : Nat) :
    (decode ⟨w, a, b⟩).instr?.isSome = true ↔ (1 ≤ w.toNat ∧ w.toNat ≤ 11) ∨ w.toNat = 17 := by
  have at0 : ∀ w : CmdWord, (decode ⟨w, 0, 0⟩).instr?.isSome = true ↔
      (1 ≤ w.toNat ∧ w.toNat ≤ 11) ∨ w.toNat = 17 := by decide
  rw [← at0 w, decode_withPorts]
  cases decode ⟨w, 0, 0⟩ <;> rfl

theorem exists_decode_eq_illegal {w : CmdWord} (a b : Nat)
    (h : ¬ ((1 ≤ w.toNat ∧ w.toNat ≤ 11) ∨ w.toNat = 17)) : ∃ why, decode ⟨w, a, b⟩ = .illegal why := by
  rw [← decode_isSome_iff w a b] at h
  cases hd : decode ⟨w, a, b⟩ with
  | illegal why => exact ⟨why, rfl⟩
  | instr i => simp [hd, Decoded.instr?] at h

theorem exists_decode_eq_instr {w : CmdWord} (a b : Nat)
    (h : (1 ≤ w.toNat ∧ w.toNat ≤ 11) ∨ w.toNat = 17) : ∃ i, decode ⟨w, a, b⟩ = .instr i ∧ i.word = w := by
  rw [← decode_isSome_iff w a b] at h
  cases hd : decode ⟨w, a, b⟩ with
  | illegal why => simp [hd, Decoded.instr?] at h
  | instr i => exact ⟨i, rfl, ((decode_eq_instr_iff _ i).mp hd).1.symm⟩

/-- Settles O3: every test is a condition on the word's number `z * 32 + t * 16 + op`, and the number says whether the
word is a command and which. -/
theorem decodingByFields : Obligations.DecodingByFields := by
  intro w z t op a b hw ht hop
  refine ⟨fun hz => ?_, fun hz h1 h0 => ?_, fun hz h1 h0 => ?_, fun hz h1 h0 => ?_, fun hz h0 h2 h11 => ?_,
    fun hz h0 hop' => ?_⟩
  · exact exists_decode_eq_illegal a b (by omega)
  · have : w = (Instr.loadF a b).word := BitVec.eq_of_toNat_eq (hw.trans (by subst hz h1 h0; rfl))
    exact (decode_eq_instr_iff_word rfl).mpr this
  · have : w = (Instr.loadG a b).word := BitVec.eq_of_toNat_eq (hw.trans (by subst hz h1 h0; rfl))
    exact (decode_eq_instr_iff_word rfl).mpr this
  · exact exists_decode_eq_illegal a b (by omega)
  · obtain ⟨i, hi, hword⟩ := exists_decode_eq_instr (w := w) a b (by omega)
    exact ⟨i, hi, by rw [hword]; omega⟩
  · exact exists_decode_eq_illegal a b (by omega)

/-- Settles O1: each conjunct is `decode_eq_instr_iff_word` at one command, whose word is the value of the table. -/
theorem wordsSelectCommandsExactly : Obligations.WordsSelectCommandsExactly := by
  intro w a b
  exact ⟨decode_eq_instr_iff_word rfl, decode_eq_instr_iff_word rfl, decode_eq_instr_iff_word rfl,
    decode_eq_instr_iff_word rfl, decode_eq_instr_iff_word rfl, decode_eq_instr_iff_word rfl,
    decode_eq_instr_iff_word rfl, decode_eq_instr_iff_word rfl, decode_eq_instr_iff_word rfl,
    decode_eq_instr_iff_word rfl, decode_eq_instr_iff_word rfl, decode_eq_instr_iff_word rfl⟩

/-- Settles O4: the counts are the decoder's on the 256 words, and the step on an illegal word is `step_illegal`. -/
theorem illegalWordsCounted : Obligations.IllegalWordsCounted := by
  refine ⟨?_, ?_, ?_, ?_, ?_, ?_, fun s c rest why hin hd => step_illegal hin hd⟩
  all_goals decide +kernel

/-! ## Ignored operands -/

/-- A step that performs a command looks at the command through the decoder only. -/
theorem step_eq_of_decode_eq (s : State) (rest : List Input) {c c' : Command} (h : decode c = decode c') :
    step { s with inputs := .command c :: rest } = step { s with inputs := .command c' :: rest } := by
  cases hd : decode c' with
  | instr i => rw [step_command rfl (h.trans hd), step_command rfl hd]; rfl
  | illegal why => rw [step_illegal rfl (h.trans hd), step_illegal rfl hd]; rfl

/-- Operands that put the same command on the ports give the same step. -/
theorem step_eq_of_withPorts_eq (s : State) (rest : List Input) (i : Instr) {a b a' b' : Nat}
    (h : i.withPorts a b = i.withPorts a' b') :
    step { s with inputs := .command ⟨i.word, a, b⟩ :: rest } =
      step { s with inputs := .command ⟨i.word, a', b'⟩ :: rest } :=
  step_eq_of_decode_eq s rest (by rw [decode_word, decode_word, h])

/-- Settles O5: an operand with a dash is not among the operands of the command decoded. -/
theorem ignoredOperandsHaveNoEffect : Obligations.IgnoredOperandsHaveNoEffect := by
  intro s rest a b a' b'
  have ignored := @step_eq_of_withPorts_eq s rest
  simp only [List.forall_mem_cons]
  exact ⟨⟨ignored .rdstate rfl, ignored .rdorder rfl, ignored .rdpoly rfl, ignored .round rfl, ignored .table rfl,
      ignored .tlen rfl, by simp⟩,
    ignored (.rdbit a) rfl, ignored (.adv a) rfl, ignored (.tblrd a) rfl, by simp⟩

/-! ## Statuses -/

theorem ErrorCode.code_toNat_le (e : ErrorCode) : e.code.toNat ≤ 9 := by
  cases e <;> decide

theorem Response.status_toNat_le (r : Response) : r.status.toNat ≤ 9 := by
  cases r with
  | ok d => exact Nat.zero_le 9
  | err e => exact ErrorCode.code_toNat_le e

/-- Settles O11: the codes are the definition's, and the largest of them is 9. -/
theorem statusCodeTable : Obligations.StatusCodeTable :=
  ⟨fun _ => rfl, rfl, rfl, rfl, rfl, rfl, rfl, rfl, rfl, rfl, Response.status_toNat_le⟩

end Sys2Proof
end

section
/-! PROOFS of the construction and views family (40_construct_and_views.md): the three paths of LOAD.F and LOAD.G, and
what RDSTATE, RDORDER and RDPOLY return. -/

namespace Sys2Proof.Machine

/-! ## The field-order deriver is the degree (R100) -/

@[simp] theorem fieldOrder_zero : fieldOrder 0 = none := rfl

theorem fieldOrder_of_ne_zero {p : Nat} (h : p ≠ 0) : fieldOrder p = some p.log2 := if_neg h

theorem fieldOrder_eq_some_iff (p n : Nat) : fieldOrder p = some n ↔ 2 ^ n ≤ p ∧ p < 2 ^ (n + 1) := by
  rcases Nat.eq_zero_or_pos p with rfl | hp
  · simp
  · rw [fieldOrder_of_ne_zero hp.ne', Option.some.injEq, Nat.log2_eq_iff hp.ne']

/-! ## Construction, for both topologies: one lemma for each path (R101, R102) -/

theorem loadRegister_zero (t : Topology) (s0 : Nat) (s : State) :
    loadRegister t 0 s0 s = .next (s.respond (.err .invalidPolynomial)) := rfl

theorem loadRegister_of_state_lt (t : Topology) (s : State) {p n s0 : Nat} (hlo : 2 ^ n ≤ p) (hhi : p < 2 ^ (n + 1))
    (hs0 : s0 < 2 ^ n) : loadRegister t p s0 s = .next ((s.construct t p n s0).respond (.ok 0)) := by
  have hn : fieldOrder p = some n := (fieldOrder_eq_some_iff p n).mpr ⟨hlo, hhi⟩
  simp [loadRegister, hn, Nat.not_le.mpr hs0]

theorem loadRegister_of_state_ge (t : Topology) (s : State) {p n s0 : Nat} (hlo : 2 ^ n ≤ p) (hhi : p < 2 ^ (n + 1))
    (hs0 : 2 ^ n ≤ s0) : loadRegister t p s0 s = .next (s.respond (.err .invalidState)) := by
  have hn : fieldOrder p = some n := (fieldOrder_eq_some_iff p n).mpr ⟨hlo, hhi⟩
  simp [loadRegister, hn, hs0]

end Sys2Proof.Machine

namespace Sys2Proof.Safety

open Sys2Proof.Machine

/-! ## Corner cases of a constructed register (R104, R106) -/

/-- A register of width 0 holds 0. -/
theorem RegisterInv.state_eq_zero {s : State} (h : RegisterInv s) (hv : s.valid = true) (ho : s.order = 0) :
    s.state = 0 := by
  obtain ⟨-, -, -, hstate⟩ := h hv
  rwa [ho, Nat.pow_zero, Nat.lt_one_iff] at hstate

/-- The polynomial 1 has degree 0. -/
theorem RegisterInv.order_eq_zero {s : State} (h : RegisterInv s) (hv : s.valid = true) (hp : s.poly = 1) :
    s.order = 0 := by
  obtain ⟨-, hle, -, -⟩ := h hv
  by_contra ho
  have hlt : 1 < 2 ^ s.order := Nat.one_lt_two_pow ho
  omega

end Sys2Proof.Safety

namespace Sys2Proof

open Sys2Proof.Machine Sys2Proof.Safety

/-- Settles O23: the three paths of construction, with the topology Fibonacci. -/
theorem loadFConstructs : Obligations.LoadFConstructs := fun s p s0 =>
  ⟨decode_word (.loadF p s0) p s0,
    fun _ => loadRegister_of_state_lt .fibonacci s,
    fun hp => hp ▸ loadRegister_zero .fibonacci s0 s,
    fun _ => loadRegister_of_state_ge .fibonacci s⟩

/-- Settles O24: the same three paths, with the topology Galois. -/
theorem loadGConstructs : Obligations.LoadGConstructs := fun s p s0 =>
  ⟨decode_word (.loadG p s0) p s0,
    fun _ => loadRegister_of_state_lt .galois s,
    fun hp => hp ▸ loadRegister_zero .galois s0 s,
    fun _ => loadRegister_of_state_ge .galois s⟩

/-- Settles O27: the views are guarded by `valid` alone, and the ranges of their data are those of the invariant. -/
theorem viewsReturnTheRegisters : Obligations.ViewsReturnTheRegisters := by
  refine ⟨fun a b => ⟨decode_word .rdstate a b, decode_word .rdorder a b, decode_word .rdpoly a b⟩,
    fun s hv => ?_, fun s hv => ⟨?_, ?_, ?_, fun hinv => ?_⟩⟩
  · simp only [List.forall_mem_cons]
    exact ⟨(exec_eq_raise_iff .rdstate s _).mpr ⟨hv, rfl⟩, (exec_eq_raise_iff .rdorder s _).mpr ⟨hv, rfl⟩,
      (exec_eq_raise_iff .rdpoly s _).mpr ⟨hv, rfl⟩, by simp⟩
  · exact exec_eq_next_of_completed (i := .rdstate) ⟨hv, rfl⟩
  · exact exec_eq_next_of_completed (i := .rdorder) ⟨hv, rfl⟩
  · exact exec_eq_next_of_completed (i := .rdpoly) ⟨hv, rfl⟩
  · have hreg := hinv.registers
    obtain ⟨hpoly, hle, hlt, hstate⟩ := hreg hv
    exact ⟨hstate, hreg.state_eq_zero hv, hreg.order_eq_zero hv, hpoly, hle, hlt⟩

end Sys2Proof
end

section
/-! PROOFS of the bit access family (41_bit_access.md): what RDBIT and WRBIT answer on each of their paths. -/

namespace Sys2Proof.Machine

/-- Replacing a bit below `n` keeps a value in range: no bit from `n` on is touched. -/
theorem setbit_lt {n v i w : Nat} (hi : i < n) (hw : w < 2) (hv : v < 2 ^ n) : setbit v i w < 2 ^ n := by
  refine lt_two_pow_of_bit fun j hj => ?_
  rw [bit_setbit v i w j hw, if_neg (by omega), bit_eq_zero_of_lt hv hj]

end Sys2Proof.Machine

namespace Sys2Proof

open Sys2Proof.Machine

/-- Settles O29: the three paths are `Completed` and two causes of `Failed`; the state written is `setbit`, which
`bit_setbit` gives bit by bit and `setbit_lt` keeps in range. -/
theorem writeBit : Obligations.WriteBit := by
  refine ⟨fun idx v => decode_word (.wrbit idx v) idx v, fun s idx v hv => ⟨fun hidx h2 => ?_, fun hidx => ?_,
    fun hidx h2 => ?_⟩⟩
  · exact ⟨setbit s.state idx v, exec_eq_next_of_completed (i := .wrbit idx v) ⟨hv, hidx, h2, rfl⟩,
      fun j => bit_setbit s.state idx v j h2, setbit_lt hidx h2⟩
  · exact (exec_eq_raise_iff (.wrbit idx v) s _).mpr (.inr (.inl ⟨hv, hidx, rfl⟩))
  · exact (exec_eq_raise_iff (.wrbit idx v) s _).mpr (.inr (.inr ⟨hv, hidx, h2, rfl⟩))

/-- Settles O28: below `order` the read is `Completed`, from `order` on it is the one cause of `Failed` that is left
once a register is constructed. -/
theorem readBit : Obligations.ReadBit := by
  refine ⟨fun idx b => decode_word (.rdbit idx) idx b, fun s idx hv => ⟨fun hidx => ?_, fun hidx => ?_⟩⟩
  · exact exec_eq_next_of_completed (i := .rdbit idx) ⟨hv, hidx, rfl⟩
  · exact (exec_eq_raise_iff (.rdbit idx) s _).mpr (.inr ⟨hv, hidx, rfl⟩)

end Sys2Proof
end

section
/-! PROOFS of the round and advance family (42_round_and_advance.md): what ROUND and ADV answer once a register is
constructed. -/

namespace Sys2Proof.Machine

/-! ## Both commands write a number of rounds of the state and return it (R131, R132) -/

theorem exec_round_of_valid {s : State} (hv : s.valid = true) :
    exec .round s = .next ((s.writeState (roundTopo s.topo s.order s.poly s.state)).respond
      (.ok (roundTopo s.topo s.order s.poly s.state))) :=
  exec_eq_next_of_completed (i := .round) ⟨hv, rfl⟩

theorem exec_adv_of_valid {s : State} (c : Nat) (hv : s.valid = true) :
    exec (.adv c) s = .next ((s.writeState ((roundTopo s.topo s.order s.poly)^[c] s.state)).respond
      (.ok ((roundTopo s.topo s.order s.poly)^[c] s.state))) := by
  rw [← advance_eq_iterate]
  exact exec_eq_next_of_completed (i := .adv c) ⟨hv, rfl⟩

/-- No round at all writes the state with its own value. -/
theorem exec_adv_zero_of_valid {s : State} (hv : s.valid = true) :
    exec (.adv 0) s = .next (s.respond (.ok s.state)) :=
  exec_adv_of_valid 0 hv

theorem exec_adv_one_of_valid {s : State} (hv : s.valid = true) : exec (.adv 1) s = exec .round s :=
  (exec_adv_of_valid 1 hv).trans (exec_round_of_valid hv).symm

end Sys2Proof.Machine

namespace Sys2Proof

open Sys2Proof.Machine

/-- Settles O40: the counts 0 and 1 are the iterate of the selected round at 0 and at 1. -/
theorem advCompletes : Obligations.AdvCompletes := by
  refine ⟨fun c b => decode_word (.adv c) c b, fun s c f hv hf => ?_⟩
  subst hf
  exact ⟨exec_adv_of_valid c hv, exec_adv_zero_of_valid hv, exec_adv_one_of_valid hv⟩

/-- Settles O39: `topo` selects which round `roundTopo` is. -/
theorem roundCompletes : Obligations.RoundCompletes := by
  refine ⟨fun a b => decode_word .round a b, fun s hv => ⟨fun htopo => ?_, fun htopo => ?_⟩⟩
  · have hround : roundTopo s.topo s.order s.poly s.state = fibRound s.order s.poly s.state := by rw [htopo]; rfl
    rw [exec_round_of_valid hv, hround]; rfl
  · have hround : roundTopo s.topo s.order s.poly s.state = galRound s.order s.poly s.state := by rw [htopo]; rfl
    rw [exec_round_of_valid hv, hround]; rfl

end Sys2Proof
end

section
/-! PROOFS of the state-table family (43_state_table_engine.md): which list the engine answers, what TABLE leaves alone,
and what TLEN and TBLRD answer on each of their paths. -/

namespace Sys2Proof.Machine

/-! ## The engine answers the orbit up to its first closure (R144, R145, R147) -/

@[simp] theorem orbit_one (f : Nat → Nat) (s0 : Nat) : orbit f s0 1 = [s0] := rfl

theorem mem_orbit_iff_eq_iterate {f : Nat → Nat} {s0 k x : Nat} : x ∈ orbit f s0 k ↔ ∃ j, j < k ∧ x = f^[j] s0 := by
  simp only [mem_orbit, eq_comm]

/-- `tableLoop_eq_some` from the engine's start: the first state alone is recorded and `2^n + 1` passes are allowed. -/
theorem stateTable_eq_some_iff (t : Topology) (n p s0 : Nat) (entries : List Nat) :
    stateTable t n p s0 = some entries ↔
      ∃ m, 0 < m ∧ m ≤ 2 ^ n + 1 ∧ entries = orbit (roundTopo t n p) s0 m ∧
        (roundTopo t n p)^[m] s0 ∈ orbit (roundTopo t n p) s0 m ∧
        ∀ l, 0 < l → l < m → (roundTopo t n p)^[l] s0 ∉ orbit (roundTopo t n p) s0 l := by
  have hloop := tableLoop_eq_some t n p s0 (2 ^ n + 1) 0 entries
  rwa [Nat.zero_add, Nat.zero_add, orbit_one] at hloop

/-- No state before the `m`-th closes the orbit exactly when those states are pairwise different. -/
theorem forall_notMem_orbit_iff (f : Nat → Nat) (s0 m : Nat) :
    (∀ l, 0 < l → l < m → f^[l] s0 ∉ orbit f s0 l) ↔ ∀ j k, j < k → k < m → f^[k] s0 ≠ f^[j] s0 := by
  constructor
  · intro hopen j k hjk hkm heq
    exact hopen k (by omega) hkm (mem_orbit_iff_eq_iterate.mpr ⟨j, hjk, heq⟩)
  · intro hne l _ hlm hmem
    obtain ⟨j, hjl, heq⟩ := mem_orbit_iff_eq_iterate.mp hmem
    exact hne j l hjl hlm heq

/-! ## TABLE completes with the engine's list, and is of the registers alone (R140, R146) -/

theorem exec_table_of_stateTable {s : State} {l : List Nat} (hv : s.valid = true)
    (hl : stateTable s.topo s.order s.poly s.state = some l) :
    exec .table s = .next ((s.writeTable l).respond (.ok l.length)) :=
  exec_eq_next_of_completed (i := .table) ⟨hv, l, hl, rfl⟩

/-- TABLE's next state is the old one with a table or an error added. -/
theorem exec_table_eq_next {s t : State} (h : exec .table s = .next t) :
    (∃ l : List Nat, t = (s.writeTable l).respond (.ok l.length)) ∨ ∃ e, t = s.respond (.err e) := by
  rcases exec_eq_next h with ⟨-, l, -, ht⟩ | ⟨e, -, ht⟩
  · exact .inl ⟨l, ht⟩
  · exact .inr ⟨e, ht⟩

/-! ## TBLRD reads an entry that exists (R143) -/

/-- A counted entry of a buffer in canonical form exists. -/
theorem State.exists_tbl_getElem?_of_wf {s : State} (h : Memory.wf s = true) {k : Nat} (hk : k < s.tlen) :
    ∃ v, s.tbl[k]? = some v := by
  rw [← (Memory.wf_iff s).mp h] at hk
  exact ⟨s.tbl[k], List.getElem?_eq_getElem hk⟩

end Sys2Proof.Machine

namespace Sys2Proof.Safety

open Sys2Proof.Machine

/-- A constructed register that meets the invariant has a state in range, so the engine answers. -/
theorem RegisterInv.exists_stateTable {s : State} (h : RegisterInv s) (hv : s.valid = true) :
    ∃ l, stateTable s.topo s.order s.poly s.state = some l := by
  obtain ⟨-, -, -, hstate⟩ := h hv
  obtain ⟨m, -, -, hl, -⟩ := stateTable_of_lt (t := s.topo) s.poly hstate
  exact ⟨_, hl⟩

end Sys2Proof.Safety

namespace Sys2Proof

open Sys2Proof.Machine Sys2Proof.Safety

/-- Settles O43: `stateTable_eq_some_iff`, with membership in the orbit written out and no closure before `m` said as
pairwise difference. -/
theorem stateTableDefinition : Obligations.StateTableDefinition := by
  intro t n p s0 entries f hf
  subst hf
  rw [stateTable_eq_some_iff]
  refine exists_congr fun m => ?_
  rw [forall_notMem_orbit_iff, mem_orbit_iff_eq_iterate]
  rfl

/-- Settles O45: the engine answers from the registers alone, and the table it writes replaces the whole buffer. -/
theorem tableNeverAnswersFromTheBuffer : Obligations.TableNeverAnswersFromTheBuffer := by
  intro s flag len entries hreg hv
  obtain ⟨l, hl⟩ := hreg.exists_stateTable hv
  rw [exec_table_of_stateTable hv hl]
  exact exec_table_of_stateTable (s := { s with tvalid := flag, tlen := len, tbl := entries }) hv hl

/-- Settles O46: on success only the buffer and the responses are written, on failure only the responses. -/
theorem tableLeavesTheRegisters : Obligations.TableLeavesTheRegisters := by
  intro s t h
  rcases exec_table_eq_next h with ⟨l, rfl⟩ | ⟨e, rfl⟩
  · exact ⟨rfl, rfl, rfl, rfl, rfl, rfl⟩
  · exact ⟨rfl, rfl, rfl, rfl, rfl, rfl⟩

/-- Settles O47: TLEN's two paths are split on `tvalid`, and the range of its data is the invariant's. -/
theorem tlenReturnsTheLength : Obligations.TlenReturnsTheLength := by
  refine ⟨fun a b => decode_word .tlen a b, fun s hv => ⟨fun ht => ?_, fun ht => ?_, fun ht hinv => ?_⟩⟩
  · exact exec_eq_next_of_completed (i := .tlen) ⟨hv, ht, rfl⟩
  · exact (exec_eq_raise_iff .tlen s _).mpr (.inr ⟨hv, ht, rfl⟩)
  · obtain ⟨-, hpos, hle, -⟩ := hinv.tables ht
    exact ⟨hpos, hle⟩

/-- Settles O48: below `tlen` the canonical form holds the entry; the two errors are the causes of `Failed`, in their
order. -/
theorem tblrdReturnsTheEntry : Obligations.TblrdReturnsTheEntry := by
  refine ⟨fun k b => decode_word (.tblrd k) k b, fun s k hv => ⟨fun hwf ht hk => ?_, fun ht => ?_, fun ht hk => ?_⟩⟩
  · obtain ⟨v, hentry⟩ := State.exists_tbl_getElem?_of_wf hwf hk
    have hread : s.memRead k = some v := (State.memRead_of_wf hwf k).trans hentry
    exact ⟨v, hentry, exec_eq_next_of_completed (i := .tblrd k) ⟨hv, ht, hk, v, hread, rfl⟩⟩
  · exact (exec_eq_raise_iff (.tblrd k) s _).mpr (.inr (.inl ⟨hv, ht, rfl⟩))
  · exact (exec_eq_raise_iff (.tblrd k) s _).mpr (.inr (.inr ⟨hv, ht, hk, rfl⟩))

end Sys2Proof
end

section
/-! PROOFS of the Fibonacci round family (44_fibonacci_round.md): each bit of the round, the top one as the parity of the
number of tapped bits that are set. -/

namespace Sys2Proof.Machine

/-- A tapped bit below `n` is the product of the state bit and the polynomial bit. -/
theorem bit_and_tapmask {i n : Nat} (p s : Nat) (hi : i < n) : bit (s &&& tapmask n p) i = bit s i * bit p i := by
  rw [bit_and, bit_tapmask, if_pos hi]

/-- The feedback bit `fb` of R160 counts, modulo 2, the positions below `n` that both values set. -/
theorem parity_and_tapmask_eq_sum (n p s : Nat) :
    parity (s &&& tapmask n p) = (∑ i ∈ Finset.range n, bit s i * bit p i) % 2 := by
  have hlt : s &&& tapmask n p < 2 ^ n := Nat.and_lt_two_pow s (tapmask_lt n p)
  have hbits : ∑ i ∈ Finset.range n, bit (s &&& tapmask n p) i = ∑ i ∈ Finset.range n, bit s i * bit p i :=
    Finset.sum_congr rfl fun i hi => bit_and_tapmask p s (Finset.mem_range.mp hi)
  rw [parity_eq_parityBelow hlt, parityBelow_eq_sum, hbits]

/-- Below the top the Fibonacci round moves every bit down by one. -/
theorem bit_fibRound_of_lt_top {n s i : Nat} (p : Nat) (hs : s < 2 ^ n) (hi : i + 2 ≤ n) :
    bit (fibRound n p s) i = bit s (i + 1) := by
  rw [bit_fibRound p i (by omega) hs, if_neg (by omega)]

/-- The top bit of the Fibonacci round is the feedback bit. -/
theorem bit_fibRound_top {n s : Nat} (p : Nat) (hn : 1 ≤ n) (hs : s < 2 ^ n) :
    bit (fibRound n p s) (n - 1) = (∑ i ∈ Finset.range n, bit s i * bit p i) % 2 := by
  rw [bit_fibRound p (n - 1) hn hs, if_pos rfl, parity_and_tapmask_eq_sum]

end Sys2Proof.Machine

namespace Sys2Proof

open Sys2Proof.Machine

/-- Settles O31: the bits below the top, the top bit and the range are one lemma each; for `n = 0` the round is 0 by
definition. -/
theorem fibonacciRoundBits : Obligations.FibonacciRoundBits :=
  ⟨fun _ p _ hn _ _ hs => ⟨fun _ => bit_fibRound_of_lt_top p hs, bit_fibRound_top p hn hs, fibRound_lt p hs⟩, rfl⟩

end Sys2Proof
end

section
/-! PROOFS of the Galois round family (45_galois_round.md): each bit of the round, below the top and at the top. -/

namespace Sys2Proof.Machine

/-- Bit 0 is the low bit, the one both rounds shift out. -/
theorem bit_zero_right (v : Nat) : bit v 0 = v % 2 := by
  rw [bit, Nat.pow_zero, Nat.div_one]

/-- Below `n` the tap mask of the Galois round is the polynomial. -/
theorem bit_galRound_of_lt {n i : Nat} (p s : Nat) (hi : i < n) :
    bit (galRound n p s) i = bit s (i + 1) ^^^ (s % 2 * bit p i) := by
  rw [bit_galRound, bit_tapmask, if_pos hi, bit_zero_right]

/-- The XOR of the bit moved down and the tapped bit shifted out is their sum modulo 2. -/
theorem bit_galRound_eq_sum_mod_two {n i : Nat} (p s : Nat) (hi : i < n) :
    bit (galRound n p s) i = (bit s (i + 1) + s % 2 * bit p i) % 2 := by
  rw [← Nat.xor_mod_two_eq, ← bit_galRound_of_lt p s hi, Nat.mod_eq_of_lt (bit_lt_two _ _)]

/-- No bit is moved into the top one, for a state in range. -/
theorem bit_galRound_top {n s : Nat} (p : Nat) (hn : 1 ≤ n) (hs : s < 2 ^ n) :
    bit (galRound n p s) (n - 1) = s % 2 * bit p (n - 1) := by
  have hin : bit s (n - 1 + 1) = 0 := bit_eq_zero_of_lt hs (by omega)
  rw [bit_galRound_of_lt p s (by omega), hin, Nat.zero_xor]

end Sys2Proof.Machine

namespace Sys2Proof

open Sys2Proof.Machine

/-- Settles O32: the bits below the top, the top bit and the range are one lemma each; for `n = 0` the round of the one
state computes to 0. -/
theorem galoisRoundBits : Obligations.GaloisRoundBits :=
  ⟨fun _ p s hn _ _ hs =>
    ⟨fun _ hi => bit_galRound_eq_sum_mod_two p s (by omega), bit_galRound_top p hn hs, galRound_lt p hs⟩, rfl⟩

end Sys2Proof
end

section
/-! PROOFS of the exceptions family (60_exceptions.md): what an error leaves unchanged, and for each error the commands
and the states that raise it. -/

namespace Sys2Proof.Machine

open Sys2Proof.Safety

/-! ## A step that performs a command answers OK, or an error alone (R184) -/

theorem step_command_eq_next {s t : State} {c : Command} {rest : List Input} (hin : s.inputs = .command c :: rest)
    (h : step s = .next t) :
    (∃ d, t.resps = s.resps ++ [.ok d]) ∨ ∃ e, t = (s.withInputs rest).respond (.err e) := by
  cases hd : decode c with
  | illegal why =>
    rw [step_illegal hin hd] at h
    exact .inr ⟨.illegalCommand, (Host.Outcome.next.inj h).symm⟩
  | instr i =>
    rw [step_command hin hd] at h
    rcases exec_eq_next h with hc | ⟨e, -, ht⟩
    · exact .inl hc.resps
    · exact .inr ⟨e, ht⟩

/-! ## The causes of the errors, error by error (R181 to R190) -/

/-- What a command that ends with the error `e` must be, and in which state: the table `Failed`, read by errors where
that one is read by commands. -/
def Cause (i : Instr) (s : State) : ErrorCode → Prop
  | .invalidPolynomial => ∃ s0, i = .loadF 0 s0 ∨ i = .loadG 0 s0
  | .invalidState => ∃ p s0 n, (i = .loadF p s0 ∨ i = .loadG p s0) ∧ fieldOrder p = some n ∧ 2 ^ n ≤ s0
  | .indexOutOfRange => s.valid = true ∧ ∃ idx, (i = .rdbit idx ∨ ∃ v, i = .wrbit idx v) ∧ s.order ≤ idx
  | .invalidBitValue => s.valid = true ∧ ∃ idx v, i = .wrbit idx v ∧ idx < s.order ∧ 2 ≤ v
  | .cycleNotFound => i = .table ∧ s.valid = true ∧ stateTable s.topo s.order s.poly s.state = none
  | .notConstructed => s.valid = false ∧ isLoad i = false
  | .illegalCommand => False
  | .noTable => s.valid = true ∧ s.tvalid = false ∧ (i = .tlen ∨ ∃ k, i = .tblrd k)
  | .tableIndexOutOfRange => s.valid = true ∧ s.tvalid = true ∧ ∃ k, i = .tblrd k ∧ s.tlen ≤ k

theorem fieldOrder_eq_none_iff (p : Nat) : fieldOrder p = none ↔ p = 0 := by
  simp [fieldOrder]

theorem Failed.cause {i : Instr} {s : State} {e : ErrorCode} (h : Failed i s e) : Cause i s e := by
  cases i with
  | loadF p s0 =>
    obtain ⟨hp, rfl⟩ | ⟨n, hp, hs0, rfl⟩ := h
    · obtain rfl := (fieldOrder_eq_none_iff p).mp hp
      exact ⟨s0, .inl rfl⟩
    · exact ⟨p, s0, n, .inl rfl, hp, hs0⟩
  | loadG p s0 =>
    obtain ⟨hp, rfl⟩ | ⟨n, hp, hs0, rfl⟩ := h
    · obtain rfl := (fieldOrder_eq_none_iff p).mp hp
      exact ⟨s0, .inr rfl⟩
    · exact ⟨p, s0, n, .inr rfl, hp, hs0⟩
  | rdstate | rdorder | rdpoly | round | adv c =>
    obtain ⟨hv, rfl⟩ := h
    exact ⟨hv, rfl⟩
  | rdbit idx =>
    obtain ⟨hv, rfl⟩ | ⟨hv, hidx, rfl⟩ := h
    · exact ⟨hv, rfl⟩
    · exact ⟨hv, idx, .inl rfl, hidx⟩
  | wrbit idx v =>
    obtain ⟨hv, rfl⟩ | ⟨hv, hidx, rfl⟩ | ⟨hv, hidx, h2, rfl⟩ := h
    · exact ⟨hv, rfl⟩
    · exact ⟨hv, idx, .inr ⟨v, rfl⟩, hidx⟩
    · exact ⟨hv, idx, v, rfl, hidx, h2⟩
  | table =>
    obtain ⟨hv, rfl⟩ | ⟨hv, hnone, rfl⟩ := h
    · exact ⟨hv, rfl⟩
    · exact ⟨rfl, hv, hnone⟩
  | tlen =>
    obtain ⟨hv, rfl⟩ | ⟨hv, ht, rfl⟩ := h
    · exact ⟨hv, rfl⟩
    · exact ⟨hv, ht, .inl rfl⟩
  | tblrd k =>
    obtain ⟨hv, rfl⟩ | ⟨hv, ht, rfl⟩ | ⟨hv, ht, hk, rfl⟩ := h
    · exact ⟨hv, rfl⟩
    · exact ⟨hv, ht, .inr ⟨k, rfl⟩⟩
    · exact ⟨hv, ht, k, rfl, hk⟩

/-- Every command but a construction checks `valid` first (R192). -/
theorem exec_of_not_valid {i : Instr} {s : State} (hv : s.valid = false) (hi : isLoad i = false) :
    exec i s = .next (s.respond (.err .notConstructed)) := by
  cases i with
  | loadF p s0 | loadG p s0 => cases hi
  | rdstate | rdorder | rdpoly | rdbit idx | wrbit idx v | round | adv c | table | tlen | tblrd k =>
    exact whenConstructed_of_not_valid _ hv

end Sys2Proof.Machine

namespace Sys2Proof.Safety

open Sys2Proof.Machine

theorem isLoad_eq_false_iff (i : Instr) :
    isLoad i = false ↔ (∀ p s0, i ≠ .loadF p s0) ∧ ∀ p s0, i ≠ .loadG p s0 := by
  cases i <;> simp [isLoad]

theorem raises_iff_failed (i : Instr) (s : State) (e : ErrorCode) : Raises i s e ↔ Failed i s e :=
  exec_eq_raise_iff i s e

theorem Raises.cause {i : Instr} {s : State} {e : ErrorCode} (h : Raises i s e) : Cause i s e :=
  ((raises_iff_failed i s e).mp h).cause

end Sys2Proof.Safety

namespace Sys2Proof

open Sys2Proof.Machine Sys2Proof.Safety

/-- Settles O12: a command that completed answers OK, so a step that answers an error did nothing but respond. -/
theorem errorsChangeNothing : Obligations.ErrorsChangeNothing := by
  intro s t c rest e hin h hresps
  rcases step_command_eq_next hin h with ⟨d, hok⟩ | ⟨e', rfl⟩
  · simp [hok] at hresps
  · obtain rfl : e' = e := by simpa using hresps
    exact ⟨rfl, rfl, rfl⟩

/-- Settles O13: the polynomial 0 alone has no field order. -/
theorem invalidPolynomialCause : Obligations.InvalidPolynomialCause := by
  refine ⟨rfl, fun i s => ⟨Raises.cause, ?_⟩⟩
  rintro ⟨s0, rfl | rfl⟩
  · exact loadRegister_zero .fibonacci s0 s
  · exact loadRegister_zero .galois s0 s

/-- Settles O14: the field order is the degree, and the state is checked against it for both topologies. -/
theorem invalidStateCause : Obligations.InvalidStateCause := by
  refine ⟨rfl, fun i s => ⟨fun h => ?_, ?_⟩⟩
  · obtain ⟨p, s0, n, hi, hp, hs0⟩ := h.cause
    obtain ⟨hlo, hhi⟩ := (fieldOrder_eq_some_iff p n).mp hp
    exact ⟨p, s0, n, hi, hlo, hhi, hs0⟩
  · rintro ⟨p, s0, n, rfl | rfl, hlo, hhi, hs0⟩
    · exact loadRegister_of_state_ge .fibonacci s hlo hhi hs0
    · exact loadRegister_of_state_ge .galois s hlo hhi hs0

/-- Settles O15: RDBIT and WRBIT check the index right after `valid`. -/
theorem indexOutOfRangeCause : Obligations.IndexOutOfRangeCause := by
  refine ⟨rfl, fun i s => ⟨Raises.cause, ?_⟩⟩
  rintro ⟨hv, idx, rfl | ⟨v, rfl⟩, hidx⟩
  · exact (raises_iff_failed (.rdbit idx) s _).mpr (.inr ⟨hv, hidx, rfl⟩)
  · exact (raises_iff_failed (.wrbit idx v) s _).mpr (.inr (.inl ⟨hv, hidx, rfl⟩))

/-- Settles O16: WRBIT checks the value last. -/
theorem invalidBitValueCause : Obligations.InvalidBitValueCause := by
  refine ⟨rfl, fun i s => ⟨Raises.cause, ?_⟩⟩
  rintro ⟨hv, idx, v, rfl, hidx, h2⟩
  exact (raises_iff_failed (.wrbit idx v) s _).mpr (.inr (.inr ⟨hv, hidx, h2, rfl⟩))

/-- Settles O18: all commands but the two constructions check `valid` before anything else; the constructions never do. -/
theorem notConstructedCause : Obligations.NotConstructedCause := by
  refine ⟨rfl, fun i s => ?_⟩
  rw [← isLoad_eq_false_iff]
  exact ⟨Raises.cause, fun ⟨hv, hi⟩ => exec_of_not_valid hv hi⟩

/-- Settles O19: TLEN and TBLRD check `tvalid` right after `valid`. -/
theorem noTableCause : Obligations.NoTableCause := by
  refine ⟨rfl, fun i s => ⟨Raises.cause, ?_⟩⟩
  rintro ⟨hv, ht, rfl | ⟨k, rfl⟩⟩
  · exact (raises_iff_failed .tlen s _).mpr (.inr ⟨hv, ht, rfl⟩)
  · exact (raises_iff_failed (.tblrd k) s _).mpr (.inr (.inl ⟨hv, ht, rfl⟩))

/-- Settles O20: TBLRD checks its index last. -/
theorem tableIndexOutOfRangeCause : Obligations.TableIndexOutOfRangeCause := by
  refine ⟨rfl, fun i s => ⟨Raises.cause, ?_⟩⟩
  rintro ⟨hv, ht, k, rfl, hk⟩
  exact (raises_iff_failed (.tblrd k) s _).mpr (.inr (.inr ⟨hv, ht, hk, rfl⟩))

/-- The twelve command words as numbers, the form in which the decoder's lemmas speak of them. -/
theorem mem_commandWords_iff (w : CmdWord) :
    w ∈ [0x01#8, 0x11#8, 0x02#8, 0x03#8, 0x04#8, 0x05#8, 0x06#8, 0x07#8, 0x08#8, 0x09#8, 0x0A#8, 0x0B#8] ↔
      (1 ≤ w.toNat ∧ w.toNat ≤ 11) ∨ w.toNat = 17 := by
  revert w; decide

/-- Settles O21: a word that is none of the twelve is decoded as illegal, and a command that was decoded never ends
with IllegalCommand, which has no cause among the twelve. -/
theorem illegalCommandCause : Obligations.IllegalCommandCause := by
  refine ⟨rfl, fun s w a b rest hin => ?_⟩
  rw [mem_commandWords_iff]
  constructor
  · intro hw
    obtain ⟨why, hd⟩ := exists_decode_eq_illegal a b hw
    exact step_illegal hin hd
  · intro h hw
    obtain ⟨i, hd, -⟩ := exists_decode_eq_instr a b hw
    rw [step_command hin hd] at h
    exact Raises.cause (i := i) (s := s.withInputs rest) h

end Sys2Proof
end

section
/-! PROOFS about the encoder (30_encoding.md sections 2 and 4): it is a right inverse of the decoder, and its triple fits
the ports exactly when the command is well formed. -/

namespace Sys2Proof

open Sys2Proof.Machine

/-- Putting operands on the ports changes nothing exactly when the operands the command reads are already its own. -/
theorem Instr.withPorts_eq_self_iff (i : Instr) (a b : Nat) :
    i.withPorts a b = i ↔ (i.readsA = true → a = i.portA) ∧ (i.readsB = true → b = i.portB) := by
  cases i <;> simp [Instr.withPorts, Instr.readsA, Instr.readsB, Instr.portA, Instr.portB]

@[simp] theorem Instr.withPorts_portA_portB (i : Instr) : i.withPorts i.portA i.portB = i :=
  (i.withPorts_eq_self_iff _ _).mpr ⟨fun _ => rfl, fun _ => rfl⟩

theorem decode_encode (i : Instr) : decode (encode i) = .instr i :=
  (decode_word i i.portA i.portB).trans (congrArg Decoded.instr i.withPorts_portA_portB)

@[simp] theorem Config.NMax.fitsPort_zero (m : Config.NMax) : m.fitsPort 0 = true := by
  cases m <;> simp [Config.NMax.fitsPort]

/-- An operand that is not read is assembled as 0, which fits every port. -/
theorem encode_fits (m : Config.NMax) (i : Instr) : (encode i).fits m = i.wellFormed m := by
  cases i <;> simp [encode, Command.fits, Instr.portA, Instr.portB, Instr.wellFormed]

/-- Settles O2: the decoder looks at the word and at the operands that are read, and the encoder gives both. -/
theorem decodeEncodeAgree : Obligations.DecodeEncodeAgree := by
  refine ⟨fun c i => ?_, decode_encode, encode_fits⟩
  rw [decode_eq_instr_iff, Instr.withPorts_eq_self_iff]
  rfl

end Sys2Proof
end

section
/-! PROOFS about the step around the commands (30_encoding.md R70, 70_reset_and_hazards.md R210) and about the frames of
the commands (10_state.md R20, column "written by"): a command responds, and before that writes at most the registers,
the state or the table. -/

namespace Sys2Proof.Machine

open Sys2Proof.Safety

/-- What a command can write, by the commands that do. -/
theorem exec_writes {i : Instr} {s t : State} (h : exec i s = .next t) :
    (∃ r, t = s.respond r) ∨
    (∃ topo p n s0 r, isLoad i = true ∧ t = (s.construct topo p n s0).respond r) ∨
    (∃ v r, advancesOrWritesBit i = true ∧ t = (s.writeState v).respond r) ∨
    (∃ l r, i = .table ∧ t = (s.writeTable l).respond r) := by
  rcases exec_eq_next h with hc | ⟨e, -, ht⟩
  · cases i with
    | loadF p s0 | loadG p s0 =>
      obtain ⟨n, -, -, ht⟩ := hc
      exact .inr (.inl ⟨_, p, n, s0, _, rfl, ht⟩)
    | rdstate | rdorder | rdpoly =>
      obtain ⟨-, ht⟩ := hc
      exact .inl ⟨_, ht⟩
    | rdbit idx | tlen =>
      obtain ⟨-, -, ht⟩ := hc
      exact .inl ⟨_, ht⟩
    | tblrd k =>
      obtain ⟨-, -, -, v, -, ht⟩ := hc
      exact .inl ⟨_, ht⟩
    | wrbit idx v =>
      obtain ⟨-, -, -, ht⟩ := hc
      exact .inr (.inr (.inl ⟨_, _, rfl, ht⟩))
    | round | adv c =>
      obtain ⟨-, ht⟩ := hc
      exact .inr (.inr (.inl ⟨_, _, rfl, ht⟩))
    | table =>
      obtain ⟨-, l, -, ht⟩ := hc
      exact .inr (.inr (.inr ⟨l, _, rfl, ht⟩))
  · exact .inl ⟨_, ht⟩

/-- A command takes no input and gives one response. -/
theorem exec_channels {i : Instr} {s t : State} (h : exec i s = .next t) :
    t.inputs = s.inputs ∧ ∃ r, t.resps = s.resps ++ [r] := by
  rcases exec_writes h with ⟨r, rfl⟩ | ⟨_, _, _, _, r, -, rfl⟩ | ⟨_, r, -, rfl⟩ | ⟨_, r, -, rfl⟩ <;>
    exact ⟨rfl, r, rfl⟩

/-- A command that is no construction, no state write and not TABLE does nothing but respond. -/
theorem exec_eq_respond {i : Instr} {s t : State} (hload : isLoad i = false) (hadv : advancesOrWritesBit i = false)
    (htable : i ≠ .table) (h : exec i s = .next t) : ∃ r, t = s.respond r := by
  rcases exec_writes h with hr | ⟨_, _, _, _, _, hi, -⟩ | ⟨_, _, hi, -⟩ | ⟨_, _, hi, -⟩
  · exact hr
  · simp [hload] at hi
  · simp [hadv] at hi
  · exact absurd hi htable

/-- A command that writes the state and is no construction writes nothing else. -/
theorem exec_eq_writeState_respond {i : Instr} {s t : State} (hadv : advancesOrWritesBit i = true)
    (h : exec i s = .next t) : ∃ v r, t = (s.writeState v).respond r := by
  rcases exec_writes h with ⟨r, ht⟩ | ⟨_, _, _, _, _, hi, -⟩ | ⟨v, r, -, ht⟩ | ⟨_, _, hi, -⟩
  · exact ⟨s.state, r, ht⟩
  · cases i <;> simp [isLoad, advancesOrWritesBit] at hi hadv
  · exact ⟨v, r, ht⟩
  · subst hi; simp [advancesOrWritesBit] at hadv

end Sys2Proof.Machine

namespace Sys2Proof

open Sys2Proof.Machine Sys2Proof.Safety

/-- Settles O6: it is `step_command`. -/
theorem stepRunsTheDecodedCommand : Obligations.StepRunsTheDecodedCommand :=
  fun _ _ _ _ => step_command

/-- Settles O7: it is `step_idle`. -/
theorem idleBlockHoldsItsState : Obligations.IdleBlockHoldsItsState :=
  fun _ => step_idle

/-- Settles O8: both inputs take the reset, between commands and during one. -/
theorem resetEventClearsTheFlags : Obligations.ResetEventClearsTheFlags := by
  refine fun s rest => ⟨fun hin => ⟨_, step_reset hin, rfl, rfl, rfl, rfl⟩, fun c hin => ?_⟩
  rw [step_resetDuring hin]
  exact (step_reset (s := s.withInputs (.reset :: rest)) rfl).symm

/-- Settles O9: the two flags of the state after reset. -/
theorem resetStateFlags : Obligations.ResetStateFlags := ⟨rfl, rfl⟩

/-- Settles O10: for the twelve commands it is `exec_channels`, and an illegal word is answered by one error. -/
theorem oneResponsePerCommand : Obligations.OneResponsePerCommand := by
  intro s t c rest hin h
  cases hd : decode c with
  | illegal why =>
    rw [step_illegal hin hd] at h
    obtain rfl := Host.Outcome.next.inj h
    exact ⟨rfl, _, rfl⟩
  | instr i =>
    rw [step_command hin hd] at h
    exact exec_channels h

/-- Settles O49: none of the six is a construction, a state write or TABLE. -/
theorem readingCommandsFrame : Obligations.ReadingCommandsFrame := by
  intro i s t hi h
  have hframe : isLoad i = false ∧ advancesOrWritesBit i = false ∧ i ≠ .table := by
    rcases hi with hi | ⟨idx, rfl⟩ | ⟨k, rfl⟩
    · clear h; revert i; decide
    · exact ⟨rfl, rfl, nofun⟩
    · exact ⟨rfl, rfl, nofun⟩
  obtain ⟨hload, hadv, htable⟩ := hframe
  obtain ⟨r, rfl⟩ := exec_eq_respond hload hadv htable h
  exact ⟨rfl, rfl, rfl, rfl, rfl, rfl, rfl, rfl, fun _ => rfl⟩

/-- Settles O50: the three are the commands of `advancesOrWritesBit`. -/
theorem stateWritingCommandsFrame : Obligations.StateWritingCommandsFrame := by
  intro i s t hi h
  have hadv : advancesOrWritesBit i = true := by
    rcases hi with rfl | ⟨c, rfl⟩ | ⟨idx, v, rfl⟩ <;> rfl
  obtain ⟨v, r, rfl⟩ := exec_eq_writeState_respond hadv h
  exact ⟨rfl, rfl, rfl, rfl, rfl, rfl, rfl, fun _ => rfl⟩

/-- Settles O51: a construction that completes writes the six registers, one that fails writes none. -/
theorem constructionFrame : Obligations.ConstructionFrame := by
  intro i p s0 s t hi h
  rcases exec_eq_next h with hc | ⟨e, -, rfl⟩
  · rcases hi with rfl | rfl
    · obtain ⟨n, hn, -, rfl⟩ := hc
      exact ⟨rfl, rfl, fun _ => rfl, .inl ⟨rfl, rfl, rfl, rfl, hn, fun _ => rfl, nofun⟩⟩
    · obtain ⟨n, hn, -, rfl⟩ := hc
      exact ⟨rfl, rfl, fun _ => rfl, .inl ⟨rfl, rfl, rfl, rfl, hn, nofun, fun _ => rfl⟩⟩
  · exact ⟨rfl, rfl, fun _ => rfl, .inr ⟨rfl, rfl, rfl, rfl, rfl, rfl⟩⟩

/-- Settles O52: what a command changes is among the writes of `exec_writes`. -/
theorem whoWritesEachRegister : Obligations.WhoWritesEachRegister := by
  intro i s t h
  rcases exec_writes h with ⟨r, rfl⟩ | ⟨_, _, _, _, r, hi, rfl⟩ | ⟨_, r, hi, rfl⟩ | ⟨_, r, hi, rfl⟩
  · simp
  · simp [hi]
  · simp [hi]
  · simp [hi]

end Sys2Proof
end

section
/-! PROOFS of the state invariant (10_state.md R32): reset meets it and every step keeps it, the table that TABLE writes
included (43_state_table_engine.md R148, R149). -/

namespace Sys2Proof.Machine

/-! ## Entries of the orbit -/

theorem orbit_getElem? {m k : Nat} (f : Nat → Nat) (s0 : Nat) (hk : k < m) : (orbit f s0 m)[k]? = some (f^[k] s0) := by
  simp [orbit, hk]

theorem orbit_head? {m : Nat} (f : Nat → Nat) (s0 : Nat) (hm : 1 ≤ m) : (orbit f s0 m).head? = some s0 := by
  rw [List.head?_eq_getElem?, orbit_getElem? f s0 hm]
  rfl

/-- Each entry is the round of the one before. -/
theorem orbit_getElem?_succ {m k : Nat} (f : Nat → Nat) (s0 : Nat) (hk : k + 1 < m) :
    (orbit f s0 m)[k + 1]? = (orbit f s0 m)[k]?.map f := by
  rw [orbit_getElem? f s0 hk, orbit_getElem? f s0 (by omega), Option.map_some, Function.iterate_succ_apply']

/-- The round of the last entry is the state that closes the orbit. -/
theorem apply_of_orbit_getElem?_last {f : Nat → Nat} {s0 m x : Nat} (hm : 1 ≤ m)
    (hx : (orbit f s0 m)[m - 1]? = some x) : f x = f^[m] s0 := by
  rw [orbit_getElem? f s0 (by omega), Option.some.injEq] at hx
  rw [← hx, ← Function.iterate_succ_apply' f, Nat.succ_eq_add_one, Nat.sub_add_cancel hm]

end Sys2Proof.Machine

namespace Sys2Proof.Safety

open Sys2Proof.Machine

/-! ## The table of a constructed register -/

/-- What the engine answers for a register that meets the invariant. -/
theorem RegisterInv.stateTable_eq_orbit {s : State} (h : RegisterInv s) (hv : s.valid = true) :
    ∃ m, 1 ≤ m ∧ m ≤ 2 ^ s.order ∧
      stateTable s.topo s.order s.poly s.state = some (orbit (roundTopo s.topo s.order s.poly) s.state m) ∧
      (roundTopo s.topo s.order s.poly)^[m] s.state ∈ orbit (roundTopo s.topo s.order s.poly) s.state m ∧
      (orbit (roundTopo s.topo s.order s.poly) s.state m).Nodup ∧
      ∀ x ∈ orbit (roundTopo s.topo s.order s.poly) s.state m, x < 2 ^ s.order := by
  obtain ⟨-, -, -, hstate⟩ := h hv
  exact stateTable_of_lt s.poly hstate

/-- The table of a register is in range and not longer than the number of its states. -/
theorem RegisterInv.stateTable_range {s : State} {l : List Nat} (h : RegisterInv s) (hv : s.valid = true)
    (hl : stateTable s.topo s.order s.poly s.state = some l) :
    l.length ≤ 2 ^ s.order ∧ ∀ x ∈ l, x < 2 ^ s.order := by
  obtain ⟨m, -, hm, hlm, -, -, hlt⟩ := h.stateTable_eq_orbit hv
  obtain rfl := Option.some.inj (hl.symm.trans hlm)
  exact ⟨(orbit_length _ _ m).trans_le hm, hlt⟩

/-- A table written from the registers is a table of them. -/
theorem RegisterInv.tableInv_writeTable {s : State} {l : List Nat} (h : RegisterInv s) (hv : s.valid = true)
    (hl : stateTable s.topo s.order s.poly s.state = some l) : TableInv (s.writeTable l) := by
  obtain ⟨m, hpos, hm, hlm, hclose, hnodup, hlt⟩ := h.stateTable_eq_orbit hv
  obtain rfl := Option.some.inj (hl.symm.trans hlm)
  intro _
  simp only [State.writeTable_valid, State.writeTable_topo, State.writeTable_poly, State.writeTable_order,
    State.writeTable_tlen, State.writeTable_tbl, State.memRead_writeTable, orbit_length]
  refine ⟨hv, hpos, hm, hlt, hnodup, fun k hk => orbit_getElem?_succ _ _ hk, fun x hx => ?_⟩
  rwa [apply_of_orbit_getElem?_last hpos hx]

/-! ## Each operation keeps the invariant -/

theorem stateInv_reset : StateInv State.reset where
  memory := Memory.wf_reset
  registers := nofun
  tables := nofun

/-- With both flags clear, only the canonical form of the buffer is left to show. -/
theorem StateInv.takeReset (s : State) : StateInv s.takeReset where
  memory := Memory.wf_takeReset s
  registers := nofun
  tables := nofun

theorem StateInv.respond {s : State} (h : StateInv s) (r : Response) : StateInv (s.respond r) :=
  ⟨h.memory, h.registers, h.tables⟩

theorem StateInv.withInputs {s : State} (h : StateInv s) (rest : List Input) : StateInv (s.withInputs rest) :=
  ⟨h.memory, h.registers, h.tables⟩

/-- The table does not depend on the state, so only the range of the state matters. -/
theorem StateInv.writeState {s : State} {v : Nat} (h : StateInv s) (hv : s.valid = true → v < 2 ^ s.order) :
    StateInv (s.writeState v) where
  memory := h.memory
  registers := fun hvalid =>
    have ⟨hpoly, hlo, hhi, _⟩ := h.registers hvalid
    ⟨hpoly, hlo, hhi, hv hvalid⟩
  tables := h.tables

theorem StateInv.construct {s : State} {p n s0 : Nat} (h : StateInv s) (topo : Topology)
    (hn : fieldOrder p = some n) (hs0 : s0 < 2 ^ n) : StateInv (s.construct topo p n s0) where
  memory := h.memory
  registers := fun _ => by
    obtain ⟨hlo, hhi⟩ := (fieldOrder_eq_some_iff p n).mp hn
    exact ⟨(lt_of_lt_of_le (Nat.two_pow_pos n) hlo).ne', hlo, hhi, hs0⟩
  tables := nofun

theorem StateInv.writeTable {s : State} {l : List Nat} (h : StateInv s) (hv : s.valid = true)
    (hl : stateTable s.topo s.order s.poly s.state = some l) : StateInv (s.writeTable l) where
  memory := Memory.wf_writeTable s l
  registers := h.registers
  tables := h.registers.tableInv_writeTable hv hl

/-! ## So do a command and a step -/

theorem StateInv.state_lt {s : State} (h : StateInv s) (hv : s.valid = true) : s.state < 2 ^ s.order := by
  obtain ⟨-, -, -, hstate⟩ := h.registers hv
  exact hstate

theorem StateInv.completed {i : Instr} {s t : State} (h : StateInv s) (hc : Completed i s t) : StateInv t := by
  cases i with
  | loadF p s0 | loadG p s0 =>
    obtain ⟨n, hn, hs0, rfl⟩ := hc
    exact (h.construct _ hn hs0).respond _
  | rdstate | rdorder | rdpoly =>
    obtain ⟨-, rfl⟩ := hc
    exact h.respond _
  | rdbit idx | tlen =>
    obtain ⟨-, -, rfl⟩ := hc
    exact h.respond _
  | tblrd k =>
    obtain ⟨-, -, -, v, -, rfl⟩ := hc
    exact h.respond _
  | wrbit idx v =>
    obtain ⟨-, hidx, h2, rfl⟩ := hc
    exact (h.writeState fun hv => setbit_lt hidx h2 (h.state_lt hv)).respond _
  | round =>
    obtain ⟨-, rfl⟩ := hc
    exact (h.writeState fun hv => roundTopo_lt s.poly (h.state_lt hv)).respond _
  | adv c =>
    obtain ⟨-, rfl⟩ := hc
    exact (h.writeState fun hv => advance_lt s.poly c (h.state_lt hv)).respond _
  | table =>
    obtain ⟨hv, l, hl, rfl⟩ := hc
    exact (h.writeTable hv hl).respond _

theorem StateInv.exec {i : Instr} {s t : State} (h : StateInv s) (he : exec i s = .next t) : StateInv t := by
  rcases exec_eq_next he with hc | ⟨e, -, rfl⟩
  · exact h.completed hc
  · exact h.respond _

/-- Only a table shorter than its length could stop a command, and the buffer is canonical. -/
theorem StateInv.not_stops {s : State} (h : StateInv s) (i : Instr) : ¬ Stops i s := by
  cases i with
  | tblrd k =>
    rintro ⟨-, -, hk, hnone⟩
    obtain ⟨v, hentry⟩ := State.exists_tbl_getElem?_of_wf h.memory hk
    rw [State.memRead_of_wf h.memory, hentry] at hnone
    cases hnone
  | loadF p s0 | loadG p s0 | rdstate | rdorder | rdpoly | rdbit idx | wrbit idx v | round | adv c | table | tlen =>
    exact id

theorem StateInv.exists_exec_eq_next {s : State} (h : StateInv s) (i : Instr) : ∃ t, Machine.exec i s = .next t := by
  rcases exec_cases i s with ⟨t, -, ht⟩ | ⟨e, -, ht⟩ | ⟨hstop, -⟩
  · exact ⟨t, ht⟩
  · exact ⟨_, ht⟩
  · exact absurd hstop (h.not_stops i)

end Sys2Proof.Safety

namespace Sys2Proof

open Sys2Proof.Machine Sys2Proof.Safety

/-- Settles O53: an idle step changes nothing, a reset and an illegal word keep the invariant by their operations, and a
command by `StateInv.exec`. -/
theorem stepKeepsTheInvariant : Obligations.StepKeepsTheInvariant := by
  intro s t h hstep
  rcases step_cases s with ⟨-, hs⟩ | ⟨x, rest, -, -, hs⟩ | ⟨c, rest, why, -, -, hs⟩ | ⟨c, rest, i, -, -, hs⟩
  · exact Host.Outcome.next.inj (hs.symm.trans hstep) ▸ h
  · exact Host.Outcome.next.inj (hs.symm.trans hstep) ▸ .takeReset _
  · exact Host.Outcome.next.inj (hs.symm.trans hstep) ▸ (h.withInputs rest).respond _
  · exact (h.withInputs rest).exec (hs.symm.trans hstep)

/-- Settles O56: a step stops only where a command does, and no command does while the buffer is canonical. -/
theorem stepNeverStops : Obligations.StepNeverStops := by
  intro s h
  rcases step_cases s with ⟨-, hs⟩ | ⟨x, rest, -, -, hs⟩ | ⟨c, rest, why, -, -, hs⟩ | ⟨c, rest, i, -, -, hs⟩
  · exact ⟨_, hs⟩
  · exact ⟨_, hs⟩
  · exact ⟨_, hs⟩
  · rw [hs]
    exact (h.withInputs rest).exists_exec_eq_next i

/-- Settles O44: the table is the orbit of the state up to its first closure. -/
theorem tableCompletes : Obligations.TableCompletes := by
  intro s h hv
  obtain ⟨m, hpos, hm, hl, hclose, hnodup, hlt⟩ := h.registers.stateTable_eq_orbit hv
  refine ⟨_, exec_table_of_stateTable hv hl, ?_, ?_, orbit_head? _ _ hpos, hlt, hnodup, fun k x hk hx => ?_,
    fun x hx => ?_⟩
  · rwa [orbit_length]
  · rwa [orbit_length]
  · rw [orbit_length] at hk
    rw [orbit_getElem?_succ _ _ hk, hx, Option.map_some]
  · rw [List.getLast?_eq_getElem?, orbit_length] at hx
    rwa [apply_of_orbit_getElem?_last hpos hx]

end Sys2Proof
end

section
/-! PROOFS of the widths (00_scope.md R5): what the machine computes from values that fit a block of a given NMAX fits
that block. -/

namespace Sys2Proof.Config

/-! ## Values that fit -/

theorem NMax.fitsState_of_lt {m : NMax} {n v : Nat} (hn : m.fitsOrder n = true) (hv : v < 2 ^ n) :
    m.fitsState v = true := by
  cases m with
  | unbounded => rfl
  | finite k hk =>
    have hle : 2 ^ n ≤ 2 ^ k := Nat.pow_le_pow_right (by omega) (of_decide_eq_true hn)
    exact decide_eq_true (lt_of_lt_of_le hv hle)

/-- The data port is one bit wider than a state, so it holds the number of states too. -/
theorem NMax.fitsPort_of_le_two_pow {m : NMax} {n v : Nat} (hn : m.fitsOrder n = true) (hv : v ≤ 2 ^ n) :
    m.fitsPort v = true := by
  cases m with
  | unbounded => rfl
  | finite k hk =>
    have hlt : 2 ^ n < 2 ^ (k + 1) :=
      Nat.pow_lt_pow_right (by omega) (Nat.lt_succ_of_le (of_decide_eq_true hn))
    exact decide_eq_true (lt_of_le_of_lt hv hlt)

theorem NMax.fitsPort_of_fitsState {m : NMax} {v : Nat} (hv : m.fitsState v = true) : m.fitsPort v = true := by
  cases m with
  | unbounded => rfl
  | finite k hk =>
    exact decide_eq_true (lt_trans (of_decide_eq_true hv) (Nat.pow_lt_pow_right (by omega) (Nat.lt_succ_self k)))

theorem NMax.fitsPort_of_fitsOrder {m : NMax} {n : Nat} (hn : m.fitsOrder n = true) : m.fitsPort n = true :=
  fitsPort_of_le_two_pow hn Nat.lt_two_pow_self.le

/-- A bit is below the smallest number of states of a block, as NMAX is at least 1. -/
theorem NMax.fitsPort_of_lt_two (m : NMax) {v : Nat} (hv : v < 2) : m.fitsPort v = true := by
  refine fitsPort_of_le_two_pow (n := 0) ?_ (Nat.le_of_lt_succ hv)
  cases m with
  | unbounded => rfl
  | finite k hk => exact decide_eq_true (Nat.zero_le k)

/-- The degree of a polynomial of XW bits is an order the block supports. -/
theorem NMax.fitsOrder_of_fieldOrder {m : NMax} {p n : Nat} (hp : m.fitsPort p = true)
    (hn : Machine.fieldOrder p = some n) : m.fitsOrder n = true := by
  cases m with
  | unbounded => rfl
  | finite k hk =>
    obtain ⟨hlo, -⟩ := (Machine.fieldOrder_eq_some_iff p n).mp hn
    have hlt : 2 ^ n < 2 ^ (k + 1) := lt_of_le_of_lt hlo (of_decide_eq_true hp)
    exact decide_eq_true (Nat.le_of_lt_succ ((Nat.pow_lt_pow_iff_right (by omega)).mp hlt))

end Sys2Proof.Config

namespace Sys2Proof

theorem Instr.wellFormed_withPorts {m : Config.NMax} {a b : Nat} (i : Instr) (ha : m.fitsPort a = true)
    (hb : m.fitsPort b = true) : (i.withPorts a b).wellFormed m = true := by
  cases i <;> simp [Instr.withPorts, Instr.wellFormed, ha, hb]

/-- A command that fits the ports decodes to a command with operands that fit. -/
theorem wellFormed_of_decode {m : Config.NMax} {c : Command} {i : Instr} (hd : decode c = .instr i)
    (hc : c.fits m = true) : i.wellFormed m = true := by
  obtain ⟨-, hi⟩ := (decode_eq_instr_iff c i).mp hd
  obtain ⟨ha, hb⟩ := (Bool.and_eq_true_iff).mp hc
  exact hi ▸ i.wellFormed_withPorts ha hb

end Sys2Proof

namespace Sys2Proof.Safety

open Sys2Proof.Machine Sys2Proof.Config

variable {m : NMax} {s t : State}

/-! ## Each operation keeps the widths -/

theorem fits_reset (m : NMax) : Fits m State.reset where
  poly := nofun
  order := nofun
  state := nofun
  tlen := nofun
  tbl := nofun
  inputs := by simp [State.reset]
  resps := by simp [State.reset]

theorem Fits.takeReset (h : Fits m s) : Fits m s.takeReset where
  poly := nofun
  order := nofun
  state := nofun
  tlen := nofun
  tbl := nofun
  inputs := h.inputs
  resps := h.resps

theorem Fits.withInputs {x : Input} {rest : List Input} (h : Fits m s) (hin : s.inputs = x :: rest) :
    Fits m (s.withInputs rest) where
  poly := h.poly
  order := h.order
  state := h.state
  tlen := h.tlen
  tbl := h.tbl
  inputs := fun c hc => h.inputs c (hin ▸ hc.imp (List.mem_cons_of_mem x) (List.mem_cons_of_mem x))
  resps := h.resps

theorem Fits.respond {r : Response} (h : Fits m s) (hr : m.fitsPort r.data = true) : Fits m (s.respond r) where
  poly := h.poly
  order := h.order
  state := h.state
  tlen := h.tlen
  tbl := h.tbl
  inputs := h.inputs
  resps := by
    rw [State.respond_resps, List.forall_mem_append]
    exact ⟨h.resps, List.forall_mem_singleton.mpr hr⟩

/-- An error has data 0. -/
theorem Fits.respond_err (h : Fits m s) (e : ErrorCode) : Fits m (s.respond (.err e)) :=
  h.respond m.fitsPort_zero

theorem Fits.writeState {v : Nat} (h : Fits m s) (hv : m.fitsState v = true) : Fits m (s.writeState v) where
  poly := h.poly
  order := h.order
  state := fun _ => hv
  tlen := h.tlen
  tbl := h.tbl
  inputs := h.inputs
  resps := h.resps

theorem Fits.construct {p n s0 : Nat} (h : Fits m s) (topo : Topology) (hp : m.fitsPort p = true)
    (hn : fieldOrder p = some n) (hs0 : s0 < 2 ^ n) : Fits m (s.construct topo p n s0) where
  poly := fun _ => hp
  order := fun _ => NMax.fitsOrder_of_fieldOrder hp hn
  state := fun _ => NMax.fitsState_of_lt (NMax.fitsOrder_of_fieldOrder hp hn) hs0
  tlen := nofun
  tbl := nofun
  inputs := h.inputs
  resps := h.resps

theorem Fits.writeTable {l : List Nat} (h : Fits m s) (hlen : m.fitsPort l.length = true)
    (hl : ∀ x ∈ l, m.fitsState x = true) : Fits m (s.writeTable l) where
  poly := h.poly
  order := h.order
  state := h.state
  tlen := fun _ => hlen
  tbl := fun _ => hl
  inputs := h.inputs
  resps := h.resps

/-! ## So do a command and a step -/

/-- A read gives an entry of the buffer. -/
theorem mem_tbl_of_memRead {k v : Nat} (h : s.memRead k = some v) : v ∈ s.tbl := by
  unfold State.memRead at h
  split at h
  · exact List.mem_of_getElem? h
  · cases h

/-- A new state below `2^order` is written and returned within the widths. -/
theorem Fits.writeState_respond_ok {v : Nat} (h : Fits m s) (hv : s.valid = true) (hlt : v < 2 ^ s.order) :
    Fits m ((s.writeState v).respond (.ok v)) :=
  have hfits := NMax.fitsState_of_lt (h.order hv) hlt
  (h.writeState hfits).respond (NMax.fitsPort_of_fitsState hfits)

theorem Fits.completed {i : Instr} (h : Fits m s) (hinv : StateInv s) (hi : i.wellFormed m = true)
    (hc : Completed i s t) : Fits m t := by
  cases i with
  | loadF p s0 | loadG p s0 =>
    obtain ⟨n, hn, hs0, rfl⟩ := hc
    obtain ⟨hp, -⟩ := Bool.and_eq_true_iff.mp hi
    exact (h.construct _ hp hn hs0).respond m.fitsPort_zero
  | rdstate =>
    obtain ⟨hv, rfl⟩ := hc
    exact h.respond (NMax.fitsPort_of_fitsState (h.state hv))
  | rdorder =>
    obtain ⟨hv, rfl⟩ := hc
    exact h.respond (NMax.fitsPort_of_fitsOrder (h.order hv))
  | rdpoly =>
    obtain ⟨hv, rfl⟩ := hc
    exact h.respond (h.poly hv)
  | rdbit idx =>
    obtain ⟨-, -, rfl⟩ := hc
    exact h.respond (m.fitsPort_of_lt_two (bit_lt_two s.state idx))
  | wrbit idx v =>
    obtain ⟨hv, hidx, h2, rfl⟩ := hc
    have hlt := setbit_lt hidx h2 (hinv.state_lt hv)
    exact (h.writeState (NMax.fitsState_of_lt (h.order hv) hlt)).respond m.fitsPort_zero
  | round =>
    obtain ⟨hv, rfl⟩ := hc
    exact h.writeState_respond_ok hv (roundTopo_lt s.poly (hinv.state_lt hv))
  | adv c =>
    obtain ⟨hv, rfl⟩ := hc
    exact h.writeState_respond_ok hv (advance_lt s.poly c (hinv.state_lt hv))
  | table =>
    obtain ⟨hv, l, hl, rfl⟩ := hc
    obtain ⟨hlen, hlt⟩ := hinv.registers.stateTable_range hv hl
    have hport := NMax.fitsPort_of_le_two_pow (h.order hv) hlen
    exact (h.writeTable hport fun x hx => NMax.fitsState_of_lt (h.order hv) (hlt x hx)).respond hport
  | tlen =>
    obtain ⟨-, ht, rfl⟩ := hc
    exact h.respond (h.tlen ht)
  | tblrd k =>
    obtain ⟨-, ht, -, v, hread, rfl⟩ := hc
    exact h.respond (NMax.fitsPort_of_fitsState (h.tbl ht v (mem_tbl_of_memRead hread)))

theorem Fits.exec {i : Instr} (h : Fits m s) (hinv : StateInv s) (hi : i.wellFormed m = true)
    (he : exec i s = .next t) : Fits m t := by
  rcases exec_eq_next he with hc | ⟨e, -, rfl⟩
  · exact h.completed hinv hi hc
  · exact h.respond_err e

end Sys2Proof.Safety

namespace Sys2Proof

open Sys2Proof.Machine Sys2Proof.Safety

/-- Settles O55: each operation keeps the widths, a command by `Fits.exec`, with the operands that its ports carried. -/
theorem stepKeepsTheWidths : Obligations.StepKeepsTheWidths := by
  intro m s t hinv h hstep
  rcases step_cases s with ⟨-, hs⟩ | ⟨x, rest, hin, -, hs⟩ | ⟨c, rest, why, hin, -, hs⟩ | ⟨c, rest, i, hin, hd, hs⟩
  · exact Host.Outcome.next.inj (hs.symm.trans hstep) ▸ h
  · exact Host.Outcome.next.inj (hs.symm.trans hstep) ▸ (h.withInputs hin).takeReset
  · exact Host.Outcome.next.inj (hs.symm.trans hstep) ▸ (h.withInputs hin).respond_err _
  · have hc : c.fits m = true := h.inputs c (.inl (by simp [hin]))
    exact (h.withInputs hin).exec (hinv.withInputs rest) (wellFormed_of_decode hd hc) (hs.symm.trans hstep)

/-- Settles O54: nothing is valid after reset, the buffer and the channels are empty. -/
theorem resetMeetsTheInvariant : Obligations.ResetMeetsTheInvariant :=
  ⟨stateInv_reset, fits_reset⟩

/-- Settles O25: the degree is `fieldOrder_eq_some_iff`, and the range follows from the width of the port. -/
theorem fieldOrderIsTheDegree : Obligations.FieldOrderIsTheDegree :=
  ⟨fieldOrder_eq_some_iff, fieldOrder_zero, fun _ _ _ => Config.NMax.fitsOrder_of_fieldOrder⟩

end Sys2Proof
end

section
/-! PROOFS of what a host can observe (70_reset_and_hazards.md R211, 42_round_and_advance.md R134): registers that hold no
value take part in nothing. -/

namespace Sys2Proof.Safety

open Sys2Proof.Machine

variable {s t s' : State}

/-! ## Each operation keeps two states the same to the host -/

theorem SameToHost.of_not_valid (hs : s.valid = false) (hst : s.tvalid = false) (ht : t.valid = false)
    (htt : t.tvalid = false) (hin : t.inputs = s.inputs) (hresps : t.resps = s.resps) : SameToHost s t where
  valid := ht.trans hs.symm
  tvalid := htt.trans hst.symm
  inputs := hin
  resps := hresps
  registers := fun hv => by rw [hs] at hv; cases hv
  tables := fun htv => by rw [hst] at htv; cases htv

theorem SameToHost.withInputs (h : SameToHost s t) (rest : List Input) :
    SameToHost (s.withInputs rest) (t.withInputs rest) :=
  ⟨h.valid, h.tvalid, rfl, h.resps, h.registers, h.tables⟩

/-- Reset gives the same values whatever the registers held. -/
theorem SameToHost.takeReset (h : SameToHost s t) : SameToHost s.takeReset t.takeReset :=
  .of_not_valid rfl rfl rfl rfl h.inputs h.resps

theorem SameToHost.respond (h : SameToHost s t) (r : Response) : SameToHost (s.respond r) (t.respond r) :=
  ⟨h.valid, h.tvalid, h.inputs, congrArg (· ++ [r]) h.resps, h.registers, h.tables⟩

/-- A construction gives all registers a value and disowns the table. -/
theorem SameToHost.construct (h : SameToHost s t) (topo : Topology) (p n s0 : Nat) :
    SameToHost (s.construct topo p n s0) (t.construct topo p n s0) :=
  ⟨rfl, rfl, h.inputs, h.resps, fun _ => ⟨rfl, rfl, rfl, rfl⟩, nofun⟩

theorem SameToHost.writeState (h : SameToHost s t) (v : Nat) : SameToHost (s.writeState v) (t.writeState v) where
  valid := h.valid
  tvalid := h.tvalid
  inputs := h.inputs
  resps := h.resps
  registers := fun hv =>
    have ⟨htopo, hpoly, horder, _⟩ := h.registers hv
    ⟨htopo, hpoly, horder, rfl⟩
  tables := h.tables

theorem SameToHost.writeTable (h : SameToHost s t) (l : List Nat) : SameToHost (s.writeTable l) (t.writeTable l) :=
  ⟨h.valid, rfl, h.inputs, h.resps, h.registers, fun _ => ⟨rfl, rfl⟩⟩

theorem SameToHost.memRead_eq (h : SameToHost s t) (ht : s.tvalid = true) (k : Nat) : t.memRead k = s.memRead k := by
  obtain ⟨htlen, htbl⟩ := h.tables ht
  rw [State.memRead, htlen, htbl, State.memRead]

/-! ## Each command answers the same in both -/

theorem SameToHost.completed {i : Instr} (h : SameToHost s t) (hc : Completed i s s') :
    ∃ t', Completed i t t' ∧ SameToHost s' t' := by
  cases i with
  | loadF p s0 | loadG p s0 =>
    obtain ⟨n, hn, hs0, rfl⟩ := hc
    exact ⟨_, ⟨n, hn, hs0, rfl⟩, (h.construct _ p n s0).respond _⟩
  | rdstate | rdorder | rdpoly =>
    obtain ⟨hv, rfl⟩ := hc
    obtain ⟨-, hpoly, horder, hstate⟩ := h.registers hv
    refine ⟨_, ⟨h.valid.trans hv, rfl⟩, ?_⟩
    simpa only [hpoly, horder, hstate] using h.respond _
  | rdbit idx =>
    obtain ⟨hv, hidx, rfl⟩ := hc
    obtain ⟨-, -, horder, hstate⟩ := h.registers hv
    refine ⟨_, ⟨h.valid.trans hv, horder ▸ hidx, rfl⟩, ?_⟩
    simpa only [hstate] using h.respond _
  | wrbit idx v =>
    obtain ⟨hv, hidx, h2, rfl⟩ := hc
    obtain ⟨-, -, horder, hstate⟩ := h.registers hv
    refine ⟨_, ⟨h.valid.trans hv, horder ▸ hidx, h2, rfl⟩, ?_⟩
    simpa only [hstate] using (h.writeState _).respond _
  | round | adv c =>
    obtain ⟨hv, rfl⟩ := hc
    obtain ⟨htopo, hpoly, horder, hstate⟩ := h.registers hv
    refine ⟨_, ⟨h.valid.trans hv, rfl⟩, ?_⟩
    simpa only [htopo, hpoly, horder, hstate] using (h.writeState _).respond _
  | table =>
    obtain ⟨hv, l, hl, rfl⟩ := hc
    obtain ⟨htopo, hpoly, horder, hstate⟩ := h.registers hv
    refine ⟨_, ⟨h.valid.trans hv, l, ?_, rfl⟩, (h.writeTable l).respond _⟩
    rw [htopo, hpoly, horder, hstate, hl]
  | tlen =>
    obtain ⟨hv, ht, rfl⟩ := hc
    obtain ⟨htlen, -⟩ := h.tables ht
    refine ⟨_, ⟨h.valid.trans hv, h.tvalid.trans ht, rfl⟩, ?_⟩
    simpa only [htlen] using h.respond _
  | tblrd k =>
    obtain ⟨hv, ht, hk, v, hread, rfl⟩ := hc
    obtain ⟨htlen, -⟩ := h.tables ht
    exact ⟨_, ⟨h.valid.trans hv, h.tvalid.trans ht, htlen ▸ hk, v, (h.memRead_eq ht k).trans hread, rfl⟩, h.respond _⟩

theorem SameToHost.failed {i : Instr} {e : ErrorCode} (h : SameToHost s t) (hf : Failed i s e) : Failed i t e := by
  cases i with
  | loadF p s0 | loadG p s0 => exact hf
  | rdstate | rdorder | rdpoly | round | adv c =>
    obtain ⟨hv, rfl⟩ := hf
    exact ⟨h.valid.trans hv, rfl⟩
  | rdbit idx =>
    obtain ⟨hv, rfl⟩ | ⟨hv, hidx, rfl⟩ := hf
    · exact .inl ⟨h.valid.trans hv, rfl⟩
    · obtain ⟨-, -, horder, -⟩ := h.registers hv
      exact .inr ⟨h.valid.trans hv, horder ▸ hidx, rfl⟩
  | wrbit idx v =>
    obtain ⟨hv, rfl⟩ | ⟨hv, hidx, rfl⟩ | ⟨hv, hidx, h2, rfl⟩ := hf
    · exact .inl ⟨h.valid.trans hv, rfl⟩
    · obtain ⟨-, -, horder, -⟩ := h.registers hv
      exact .inr (.inl ⟨h.valid.trans hv, horder ▸ hidx, rfl⟩)
    · obtain ⟨-, -, horder, -⟩ := h.registers hv
      exact .inr (.inr ⟨h.valid.trans hv, horder ▸ hidx, h2, rfl⟩)
  | table =>
    obtain ⟨hv, rfl⟩ | ⟨hv, hnone, rfl⟩ := hf
    · exact .inl ⟨h.valid.trans hv, rfl⟩
    · obtain ⟨htopo, hpoly, horder, hstate⟩ := h.registers hv
      refine .inr ⟨h.valid.trans hv, ?_, rfl⟩
      rw [htopo, hpoly, horder, hstate, hnone]
  | tlen =>
    obtain ⟨hv, rfl⟩ | ⟨hv, ht, rfl⟩ := hf
    · exact .inl ⟨h.valid.trans hv, rfl⟩
    · exact .inr ⟨h.valid.trans hv, h.tvalid.trans ht, rfl⟩
  | tblrd k =>
    obtain ⟨hv, rfl⟩ | ⟨hv, ht, rfl⟩ | ⟨hv, ht, hk, rfl⟩ := hf
    · exact .inl ⟨h.valid.trans hv, rfl⟩
    · exact .inr (.inl ⟨h.valid.trans hv, h.tvalid.trans ht, rfl⟩)
    · obtain ⟨htlen, -⟩ := h.tables ht
      exact .inr (.inr ⟨h.valid.trans hv, h.tvalid.trans ht, htlen ▸ hk, rfl⟩)

theorem SameToHost.exec {i : Instr} (h : SameToHost s t) (he : exec i s = .next s') :
    ∃ t', Machine.exec i t = .next t' ∧ SameToHost s' t' := by
  rcases exec_eq_next he with hc | ⟨e, hf, rfl⟩
  · obtain ⟨t', hc', h'⟩ := h.completed hc
    exact ⟨t', exec_eq_next_of_completed hc', h'⟩
  · exact ⟨_, (exec_eq_raise_iff i t e).mpr (h.failed hf), h.respond _⟩

end Sys2Proof.Safety

namespace Sys2Proof

open Sys2Proof.Machine Sys2Proof.Safety

/-- Settles O57: both states have the same next input, and each operation on it keeps them the same to the host. -/
theorem valuelessRegistersUnobserved : Obligations.ValuelessRegistersUnobserved := by
  intro s t s' h hstep
  match hin : s.inputs with
  | [] =>
    obtain rfl := Host.Outcome.next.inj ((step_idle hin).symm.trans hstep)
    exact ⟨t, step_idle (h.inputs.trans hin), h⟩
  | .reset :: rest =>
    obtain rfl := Host.Outcome.next.inj ((step_reset hin).symm.trans hstep)
    exact ⟨_, step_reset (h.inputs.trans hin), (h.withInputs rest).takeReset⟩
  | .resetDuring c :: rest =>
    obtain rfl := Host.Outcome.next.inj ((step_resetDuring hin).symm.trans hstep)
    exact ⟨_, step_resetDuring (h.inputs.trans hin), (h.withInputs rest).takeReset⟩
  | .command c :: rest =>
    have hin' := h.inputs.trans hin
    cases hd : decode c with
    | illegal why =>
      obtain rfl := Host.Outcome.next.inj ((step_illegal hin hd).symm.trans hstep)
      exact ⟨_, step_illegal hin' hd, (h.withInputs rest).respond _⟩
    | instr i =>
      rw [step_command hin' hd]
      exact (h.withInputs rest).exec ((step_command hin hd).symm.trans hstep)

/-- Runs of two states that are the same to the host end in two such states. -/
theorem run_sameToHost (k : Nat) {s t s' : State} (h : SameToHost s t) (hrun : Sys2Proof.core.run k s = .next s') :
    ∃ t', Sys2Proof.core.run k t = .next t' ∧ SameToHost s' t' := by
  induction k generalizing s t with
  | zero => exact ⟨t, run_zero t, run_zero_eq_next hrun ▸ h⟩
  | succ k ih =>
    obtain ⟨s₁, hs₁, hrest⟩ := run_succ_eq_next hrun
    obtain ⟨t₁, ht₁, h₁⟩ := valuelessRegistersUnobserved s t s₁ h hs₁
    rw [run_succ ht₁]
    exact ih h₁ hrest

/-- Settles O58: two unconstructed blocks with the same channels are the same to the host, and stay so. -/
theorem sameInputsSameResponses : Obligations.SameInputsSameResponses := by
  intro k s t s' hs hst ht htt hin hresps hrun
  obtain ⟨t', ht', h⟩ := run_sameToHost k (.of_not_valid hs hst ht htt hin hresps) hrun
  exact ⟨t', ht', h.resps, h.inputs, h.valid, h.tvalid, h.registers, h.tables⟩

end Sys2Proof
end

section
/-! PROOFS about the round functions as maps of the states (44_fibonacci_round.md R165, 45_galois_round.md R175): both are
linear over GF(2), so they are bijections exactly when they send no other state to 0. -/

namespace Sys2Proof.Machine

/-! ## Linearity -/

/-- The parity of an XOR, for values of any common width. -/
theorem parity_xor (x y : Nat) : parity (x ^^^ y) = parity x ^^^ parity y := by
  obtain ⟨k, hx, hy⟩ : ∃ k, x < 2 ^ k ∧ y < 2 ^ k :=
    ⟨x + y, lt_of_le_of_lt (Nat.le_add_right x y) Nat.lt_two_pow_self,
      lt_of_le_of_lt (Nat.le_add_left y x) Nat.lt_two_pow_self⟩
  rw [parity_eq_parityBelow (Nat.xor_lt_two_pow hx hy), parity_eq_parityBelow hx, parity_eq_parityBelow hy,
    parityBelow_xor]

@[simp] theorem fibRound_zero_order (p s : Nat) : fibRound 0 p s = 0 := if_pos rfl

theorem fibRound_xor {n x y : Nat} (p : Nat) (hx : x < 2 ^ n) (hy : y < 2 ^ n) :
    fibRound n p (x ^^^ y) = fibRound n p x ^^^ fibRound n p y := by
  rcases Nat.eq_zero_or_pos n with rfl | hn
  · simp
  · refine eq_of_bit_eq fun i => ?_
    rw [bit_xor, bit_fibRound p i hn hx, bit_fibRound p i hn hy, bit_fibRound p i hn (Nat.xor_lt_two_pow hx hy)]
    split
    · rw [Nat.and_xor_distrib_right, parity_xor]
    · exact bit_xor x y (i + 1)

/-- AND distributes over XOR on bits. -/
theorem xor_mul_of_lt_two {a b c : Nat} (ha : a < 2) (hb : b < 2) (hc : c < 2) :
    (a ^^^ b) * c = (a * c) ^^^ (b * c) := by
  interval_cases a <;> interval_cases b <;> interval_cases c <;> rfl

theorem galRound_xor (n p x y : Nat) : galRound n p (x ^^^ y) = galRound n p x ^^^ galRound n p y := by
  refine eq_of_bit_eq fun i => ?_
  have htap : (bit x 0 ^^^ bit y 0) * bit (tapmask n p) i
      = (bit x 0 * bit (tapmask n p) i) ^^^ (bit y 0 * bit (tapmask n p) i) :=
    xor_mul_of_lt_two (bit_lt_two _ _) (bit_lt_two _ _) (bit_lt_two _ _)
  simp only [bit_xor, bit_galRound, htap]
  ac_rfl

theorem roundTopo_xor {t : Topology} {n x y : Nat} (p : Nat) (hx : x < 2 ^ n) (hy : y < 2 ^ n) :
    roundTopo t n p (x ^^^ y) = roundTopo t n p x ^^^ roundTopo t n p y := by
  cases t
  · exact fibRound_xor p hx hy
  · exact galRound_xor n p x y

@[simp] theorem roundTopo_apply_zero (t : Topology) (n p : Nat) : roundTopo t n p 0 = 0 := by
  cases t
  · simp [roundTopo, fibRound]
  · simp [roundTopo, galRound, bit]

/-! ## A round is a bijection of the states exactly when its kernel is 0 -/

theorem bijOn_roundTopo_iff (t : Topology) (n p : Nat) :
    Set.BijOn (roundTopo t n p) (Set.Iio (2 ^ n)) (Set.Iio (2 ^ n)) ↔
      ∀ s, s < 2 ^ n → roundTopo t n p s = 0 → s = 0 := by
  constructor
  · intro h s hs h0
    exact h.injOn hs (Nat.two_pow_pos n) (h0.trans (roundTopo_apply_zero t n p).symm)
  · intro hker
    have hmaps : Set.MapsTo (roundTopo t n p) (Set.Iio (2 ^ n)) (Set.Iio (2 ^ n)) := fun s hs => roundTopo_lt p hs
    have hinj : Set.InjOn (roundTopo t n p) (Set.Iio (2 ^ n)) := by
      intro x hx y hy hxy
      have h0 : roundTopo t n p (x ^^^ y) = 0 := by rw [roundTopo_xor p hx hy, hxy, Nat.xor_self]
      exact Nat.xor_eq_zero_iff.mp (hker _ (Nat.xor_lt_two_pow hx hy) h0)
    exact ((Set.finite_Iio (2 ^ n)).injOn_iff_bijOn_of_mapsTo hmaps).mp hinj

theorem shiftRight_one_eq_zero_iff (s : Nat) : s >>> 1 = 0 ↔ s < 2 := by
  rw [Nat.shiftRight_eq_div_pow, pow_one]
  omega

/-- Bit 0 alone is shifted out, so the round is 0 when no other bit is set and the feedback is 0. -/
theorem fibRound_eq_zero_iff {n : Nat} (p s : Nat) (hn : 1 ≤ n) :
    fibRound n p s = 0 ↔ s < 2 ∧ parity (s &&& tapmask n p) = 0 := by
  rw [fibRound, if_neg (by omega), Nat.or_eq_zero_iff, shiftRight_one_eq_zero_iff, Nat.shiftLeft_eq_zero_iff]

/-- The feedback of state 1 is the constant term. -/
theorem parity_one_and_tapmask {n : Nat} (p : Nat) (hn : 1 ≤ n) : parity (1 &&& tapmask n p) = p % 2 := by
  have hlow : 1 &&& tapmask n p = p % 2 := by
    rw [Nat.one_and_eq_mod_two, tapmask, Nat.mod_mod_of_dvd p (dvd_pow_self 2 (by omega))]
  rw [hlow]
  rcases Nat.mod_two_eq_zero_or_one p with h | h <;> rw [h] <;> decide

theorem fibRound_kernel_iff {n : Nat} (p : Nat) (hn : 1 ≤ n) :
    (∀ s, s < 2 ^ n → fibRound n p s = 0 → s = 0) ↔ p % 2 = 1 := by
  simp only [fibRound_eq_zero_iff p _ hn]
  have hone : 1 < 2 ^ n := Nat.one_lt_two_pow (by omega)
  constructor
  · intro hker
    by_contra hp
    have hpar : parity (1 &&& tapmask n p) = 0 := by rw [parity_one_and_tapmask p hn]; omega
    exact one_ne_zero (hker 1 hone ⟨by omega, hpar⟩)
  · rintro hp s - ⟨h2, hpar⟩
    by_contra hs
    obtain rfl : s = 1 := by omega
    rw [parity_one_and_tapmask p hn, hp] at hpar
    cases hpar

/-- The Galois round of an odd state is 0 when the bits moved down are the tap mask. -/
theorem galRound_eq_zero_iff (n p s : Nat) :
    galRound n p s = 0 ↔ s = 0 ∨ s = 2 * tapmask n p + 1 := by
  rw [galRound, bit_zero_right, Nat.shiftRight_eq_div_pow, pow_one]
  split
  · next hodd => rw [Nat.xor_eq_zero_iff]; omega
  · next heven => omega

theorem tapmask_eq_top_add {n : Nat} (p : Nat) (hn : 1 ≤ n) :
    tapmask n p = 2 ^ (n - 1) * bit p (n - 1) + p % 2 ^ (n - 1) := by
  obtain ⟨k, rfl⟩ := Nat.exists_eq_add_of_le' hn
  rw [tapmask, Nat.pow_succ, Nat.mod_mul, Nat.add_sub_cancel, bit, Nat.add_comm]

theorem galRound_kernel_iff {n : Nat} (p : Nat) (hn : 1 ≤ n) :
    (∀ s, s < 2 ^ n → galRound n p s = 0 → s = 0) ↔ bit p (n - 1) = 1 := by
  have hmask := tapmask_eq_top_add p hn
  have hlow : p % 2 ^ (n - 1) < 2 ^ (n - 1) := Nat.mod_lt _ (Nat.two_pow_pos _)
  have hpow : 2 ^ n = 2 * 2 ^ (n - 1) := by rw [← Nat.pow_succ', Nat.succ_eq_add_one, Nat.sub_add_cancel hn]
  simp only [galRound_eq_zero_iff]
  constructor
  · intro hker
    by_contra hb
    have h2 : bit p (n - 1) < 2 := bit_lt_two p (n - 1)
    have hb0 : bit p (n - 1) = 0 := by omega
    rw [hb0, Nat.mul_zero, Nat.zero_add] at hmask
    exact Nat.succ_ne_zero _ (hker (2 * tapmask n p + 1) (by omega) (.inr rfl))
  · rintro hb s hs (h0 | hodd)
    · exact h0
    · rw [hb, Nat.mul_one] at hmask
      omega

/-! ## The taps are the bits of the polynomial below the degree -/

theorem tapmask_congr {n p q : Nat} (h : ∀ i, i < n → bit p i = bit q i) : tapmask n p = tapmask n q := by
  refine eq_of_bit_eq fun i => ?_
  rw [bit_tapmask, bit_tapmask]
  split
  · next hi => exact h i hi
  · rfl

/-- Both rounds see the polynomial through the tap mask only. -/
theorem roundTopo_congr {n p q : Nat} (t : Topology) (s : Nat) (h : tapmask n p = tapmask n q) :
    roundTopo t n p s = roundTopo t n q s := by
  cases t
  · simp only [roundTopo, fibRound, h]
  · simp only [roundTopo, galRound, h]

/-- A state in range has no bit where the degree bit is. -/
theorem and_tapmask_of_lt {n s : Nat} (p : Nat) (hs : s < 2 ^ n) : s &&& tapmask n p = s &&& p := by
  refine eq_of_bit_eq fun i => ?_
  rw [bit_and, bit_and, bit_tapmask]
  split
  · rfl
  · rw [bit_eq_zero_of_lt hs (by omega), Nat.zero_mul, Nat.zero_mul]

/-! ## No taps -/

@[simp] theorem tapmask_two_pow (n : Nat) : tapmask n (2 ^ n) = 0 := Nat.mod_self _

/-- Without taps nothing is fed back and the round is the shift. -/
theorem roundTopo_two_pow {n s : Nat} (t : Topology) (hs : s < 2 ^ n) : roundTopo t n (2 ^ n) s = s / 2 := by
  cases t with
  | fibonacci =>
    rcases Nat.eq_zero_or_pos n with rfl | hn
    · obtain rfl : s = 0 := Nat.lt_one_iff.mp hs
      rfl
    · rw [roundTopo, fibRound, if_neg (by omega), tapmask_two_pow, Nat.and_zero, parity_zero, Nat.zero_shiftLeft,
        Nat.or_zero, Nat.shiftRight_eq_div_pow, pow_one]
  | galois =>
    rw [roundTopo, galRound, tapmask_two_pow, Nat.xor_zero, ite_self, Nat.shiftRight_eq_div_pow, pow_one]

theorem iterate_roundTopo_two_pow {n s : Nat} (t : Topology) (c : Nat) (hs : s < 2 ^ n) :
    (roundTopo t n (2 ^ n))^[c] s = s / 2 ^ c := by
  induction c with
  | zero => simp
  | succ c ih =>
    rw [Function.iterate_succ_apply', ih, roundTopo_two_pow t (lt_of_le_of_lt (Nat.div_le_self _ _) hs),
      Nat.div_div_eq_div_mul, Nat.pow_succ]

end Sys2Proof.Machine

namespace Sys2Proof

open Sys2Proof.Machine

/-- Settles O34: bit by bit, with the parity of an XOR for the Fibonacci feedback. -/
theorem roundsAreLinear : Obligations.RoundsAreLinear := fun _ _ p _ _ => roundTopo_xor p

/-- Settles O35: the one state besides 0 that the round can send to 0 is 1, and it does unless the constant term feeds it
back. -/
theorem fibonacciBijectiveIffConstantTerm : Obligations.FibonacciBijectiveIffConstantTerm :=
  fun n p hn _ _ => (bijOn_roundTopo_iff .fibonacci n p).trans (fibRound_kernel_iff p hn)

/-- Settles O36: the one state besides 0 that the round sends to 0 is `2 * tapmask + 1`, and it is in range unless the
top tap is set. -/
theorem galoisBijectiveIffTopTap : Obligations.GaloisBijectiveIffTopTap :=
  fun n p hn _ _ => (bijOn_roundTopo_iff .galois n p).trans (galRound_kernel_iff p hn)

/-- Settles O37: the rounds see the tap mask, which is the polynomial below its degree. -/
theorem degreeBitIsNoTap : Obligations.DegreeBitIsNoTap :=
  ⟨fun t _ _ _ s h => roundTopo_congr t s (tapmask_congr h), fun _ p _ hs => by rw [and_tapmask_of_lt p hs]⟩

/-- Settles O38: `c` shifts divide by `2^c`, and `n` of them leave nothing of a state below `2^n`. -/
theorem noTapsShiftOnly : Obligations.NoTapsShiftOnly := by
  intro t n s hs
  refine ⟨roundTopo_two_pow t hs, ?_⟩
  rw [iterate_roundTopo_two_pow t n hs, Nat.div_eq_of_lt hs]

/-- Settles O33: the two functions compute these values. -/
theorem workedRounds : Obligations.WorkedRounds := by
  unfold Obligations.WorkedRounds
  decide

end Sys2Proof
end

section
/-! PROOFS about sequences of commands on one register: a bit written and read again (41_bit_access.md R122), rounds in a
row (42_round_and_advance.md R133), the registers that stay at 0 (R135, 40_construct_and_views.md R103). -/

namespace Sys2Proof.Machine

open Sys2Proof.Safety

/-! ## Bit access on its two paths -/

theorem exec_rdbit_of_lt {s : State} {idx : Nat} (hv : s.valid = true) (hidx : idx < s.order) :
    exec (.rdbit idx) s = .next (s.respond (.ok (bit s.state idx))) :=
  exec_eq_next_of_completed (i := .rdbit idx) ⟨hv, hidx, rfl⟩

theorem exec_wrbit_of_lt {s : State} {idx v : Nat} (hv : s.valid = true) (hidx : idx < s.order) (h2 : v < 2) :
    exec (.wrbit idx v) s = .next ((s.writeState (setbit s.state idx v)).respond (.ok 0)) :=
  exec_eq_next_of_completed (i := .wrbit idx v) ⟨hv, hidx, h2, rfl⟩

/-- After WRBIT, RDBIT returns the bit written at its index and the old bit at every other. -/
theorem exec_rdbit_writeState_setbit {s : State} {idx v j : Nat} (r : Response) (hv : s.valid = true)
    (hj : j < s.order) (h2 : v < 2) :
    exec (.rdbit j) ((s.writeState (setbit s.state idx v)).respond r) =
      .next (((s.writeState (setbit s.state idx v)).respond r).respond
        (.ok (if j = idx then v else bit s.state j))) := by
  rw [← bit_setbit s.state idx v j h2]
  exact exec_rdbit_of_lt hv hj

/-! ## ROUND commands in a row -/

/-- The state after `c` ROUND commands and no other input: `c` rounds, each of them answered. -/
def State.afterRounds (s : State) (c : Nat) : State :=
  { s with
    state := (roundTopo s.topo s.order s.poly)^[c] s.state
    inputs := []
    resps := s.resps ++ (List.range c).map fun j => .ok ((roundTopo s.topo s.order s.poly)^[j + 1] s.state) }

/-- The first of the ROUND commands leaves the others to do. -/
theorem State.afterRounds_succ (s : State) (c : Nat) (rest : List Input) :
    (((s.withInputs rest).writeState (roundTopo s.topo s.order s.poly s.state)).respond
      (.ok (roundTopo s.topo s.order s.poly s.state))).afterRounds c = s.afterRounds (c + 1) := by
  simp [State.afterRounds, State.respond, State.writeState, State.withInputs, List.range_succ_eq_map, Function.comp_def]

theorem step_round {s : State} {rest : List Input} {a b : Nat} (hv : s.valid = true) :
    step (s.withInputs (.command ⟨0x07#8, a, b⟩ :: rest)) =
      .next (((s.withInputs rest).writeState (roundTopo s.topo s.order s.poly s.state)).respond
        (.ok (roundTopo s.topo s.order s.poly s.state))) :=
  (step_command rfl (decode_word .round a b)).trans (exec_round_of_valid (s := s.withInputs rest) hv)

theorem step_adv {s : State} {rest : List Input} {c b : Nat} (hv : s.valid = true) :
    step (s.withInputs (.command ⟨0x08#8, c, b⟩ :: rest)) =
      .next (((s.withInputs rest).writeState ((roundTopo s.topo s.order s.poly)^[c] s.state)).respond
        (.ok ((roundTopo s.topo s.order s.poly)^[c] s.state))) :=
  (step_command rfl (decode_word (.adv c) c b)).trans (exec_adv_of_valid (s := s.withInputs rest) c hv)

theorem run_rounds (c : Nat) {s : State} (hv : s.valid = true) :
    Sys2Proof.core.run c (s.withInputs (List.replicate c (.command ⟨0x07#8, 0, 0⟩))) = .next (s.afterRounds c) := by
  induction c generalizing s with
  | zero => simp [run_zero, State.afterRounds, State.withInputs]
  | succ c ih =>
    rw [List.replicate_succ, run_succ (step_round hv), ← s.afterRounds_succ c []]
    exact ih (s := ((s.withInputs []).writeState _).respond _) hv

theorem State.afterRounds_getLast? (s : State) {c : Nat} (hc : 0 < c) :
    (s.afterRounds c).resps.getLast? = some (.ok (s.afterRounds c).state) := by
  obtain ⟨d, rfl⟩ := Nat.exists_eq_add_of_le' hc
  simp [State.afterRounds, List.range_succ]

/-! ## The all-zero state -/

theorem iterate_roundTopo_zero (t : Topology) (n p c : Nat) : (roundTopo t n p)^[c] 0 = 0 :=
  Function.iterate_fixed (roundTopo_apply_zero t n p) c

/-- The first round from 0 is 0 again and closes the table. -/
theorem stateTable_zero (t : Topology) (n p : Nat) : stateTable t n p 0 = some [0] :=
  (stateTable_eq_some_iff t n p 0 [0]).mpr ⟨1, one_pos, Nat.le_add_left 1 _, rfl, by simp, fun l _ _ => by omega⟩

theorem exec_adv_of_state_zero {s : State} (c : Nat) (hv : s.valid = true) (h0 : s.state = 0) :
    exec (.adv c) s = .next (s.respond (.ok 0)) := by
  have hiter : (roundTopo s.topo s.order s.poly)^[c] s.state = 0 := by rw [h0, iterate_roundTopo_zero]
  have hwrite : s.writeState 0 = s := by rw [← h0]; rfl
  rw [exec_adv_of_valid c hv, hiter, hwrite]

theorem exec_table_of_state_zero {s : State} (hv : s.valid = true) (h0 : s.state = 0) :
    exec .table s = .next ((s.writeTable [0]).respond (.ok 1)) :=
  exec_table_of_stateTable hv (by rw [h0, stateTable_zero])

end Sys2Proof.Machine

namespace Sys2Proof

open Sys2Proof.Machine Sys2Proof.Safety

/-- Settles O30: the state written has bit `idx` replaced and every other bit kept, and RDBIT returns its bit. -/
theorem readAfterWriteBit : Obligations.ReadAfterWriteBit := by
  intro s idx v hv hidx h2
  refine ⟨_, exec_wrbit_of_lt hv hidx h2, ?_, fun j hj hne => ?_⟩
  · rw [exec_rdbit_writeState_setbit _ hv hidx h2, if_pos rfl]
    rfl
  · rw [exec_rdbit_writeState_setbit _ hv hj h2, if_neg hne]
    rfl

/-- Settles O41: both sequences iterate the selected round, and iterates add up. -/
theorem advIsRepeatedRound : Obligations.AdvIsRepeatedRound := by
  intro s c hv
  refine ⟨⟨_, _, run_rounds c hv, step_adv hv, rfl, rfl, ?_, fun hc => ?_⟩, fun c2 => ?_⟩
  · simp [State.afterRounds]
  · rw [s.afterRounds_getLast? hc]
    simp [State.afterRounds]
  · refine ⟨_, _, _, exec_adv_of_valid c hv, exec_adv_of_valid c2 hv, exec_adv_of_valid (c + c2) hv, ?_⟩
    rw [Nat.add_comm c c2]
    exact (Function.iterate_add_apply _ c2 c s.state).symm

/-- Settles O42: 0 is a fixed point of the round, so of its iterates, and the first pass of the engine closes. -/
theorem zeroStateLocksUp : Obligations.ZeroStateLocksUp :=
  ⟨roundTopo_apply_zero, fun _ c hv h0 => ⟨exec_adv_of_state_zero c hv h0, exec_table_of_state_zero hv h0⟩⟩

/-- Settles O26: the polynomial 1 has degree 0, so every index is out of range and the one state is 0. -/
theorem zeroWidthRegister : Obligations.ZeroWidthRegister := by
  refine ⟨fun s => ⟨?_, ?_⟩, fun s s0 hs0 => ⟨?_, ?_⟩, fun s hv ho _ h0 => ⟨fun idx => ?_, fun idx v => ?_, ?_, ?_⟩⟩
  · exact loadRegister_of_state_lt .fibonacci s (n := 0) le_rfl one_lt_two one_pos
  · exact loadRegister_of_state_lt .galois s (n := 0) le_rfl one_lt_two one_pos
  · exact loadRegister_of_state_ge .fibonacci s (n := 0) le_rfl one_lt_two hs0
  · exact loadRegister_of_state_ge .galois s (n := 0) le_rfl one_lt_two hs0
  · exact (indexOutOfRangeCause.2 _ s).mpr ⟨hv, idx, .inl rfl, by omega⟩
  · exact (indexOutOfRangeCause.2 _ s).mpr ⟨hv, idx, .inr ⟨v, rfl⟩, by omega⟩
  · rw [← exec_adv_one_of_valid hv]
    exact exec_adv_of_state_zero 1 hv h0
  · exact exec_table_of_state_zero hv h0

end Sys2Proof
end

section
/-! PROOFS about the error table (60_exceptions.md R187, R199): when the engine finds no cycle, and which command can raise
which error. -/

namespace Sys2Proof.Machine

/-- The engine finds no cycle exactly when the states within its bound are pairwise different. -/
theorem stateTable_eq_none_iff (t : Topology) (n p s0 : Nat) :
    stateTable t n p s0 = none ↔
      ∀ j k, j < k → k ≤ 2 ^ n + 1 → (roundTopo t n p)^[k] s0 ≠ (roundTopo t n p)^[j] s0 := by
  classical
  constructor
  · intro hnone j k hjk hk heq
    have hex : ∃ m, 0 < m ∧ (roundTopo t n p)^[m] s0 ∈ orbit (roundTopo t n p) s0 m :=
      ⟨k, by omega, mem_orbit_iff_eq_iterate.mpr ⟨j, hjk, heq⟩⟩
    obtain ⟨hpos, hclose⟩ := Nat.find_spec hex
    have hle : Nat.find hex ≤ k :=
      Nat.find_min' hex ⟨by omega, mem_orbit_iff_eq_iterate.mpr ⟨j, hjk, heq⟩⟩
    have hsome := (stateTable_eq_some_iff t n p s0 _).mpr
      ⟨Nat.find hex, hpos, hle.trans hk, rfl, hclose, fun l hl hlt hmem => Nat.find_min hex hlt ⟨hl, hmem⟩⟩
    rw [hnone] at hsome
    cases hsome
  · intro hne
    rw [Option.eq_none_iff_forall_ne_some]
    intro l hl
    obtain ⟨m, -, hm, -, hclose, -⟩ := (stateTable_eq_some_iff t n p s0 l).mp hl
    obtain ⟨j, hjm, heq⟩ := mem_orbit_iff_eq_iterate.mp hclose
    exact hne j m hjm hm heq

end Sys2Proof.Machine

namespace Sys2Proof.Safety

open Sys2Proof.Machine

/-! ## The table of crosses, read by errors -/

theorem Cause.mem_canRaise {i : Instr} {s : State} {e : ErrorCode} (h : Cause i s e) : e ∈ canRaise i := by
  cases e with
  | invalidPolynomial => obtain ⟨s0, rfl | rfl⟩ := h <;> simp [canRaise]
  | invalidState => obtain ⟨p, s0, n, rfl | rfl, -, -⟩ := h <;> simp [canRaise]
  | indexOutOfRange => obtain ⟨-, idx, rfl | ⟨v, rfl⟩, -⟩ := h <;> simp [canRaise]
  | invalidBitValue => obtain ⟨-, idx, v, rfl, -, -⟩ := h; simp [canRaise]
  | cycleNotFound => obtain ⟨rfl, -, -⟩ := h; simp [canRaise]
  | notConstructed =>
    obtain ⟨-, hi⟩ := h
    cases i <;> simp [canRaise, isLoad] at hi ⊢
  | illegalCommand => exact h.elim
  | noTable => obtain ⟨-, -, rfl | ⟨k, rfl⟩⟩ := h <;> simp [canRaise]
  | tableIndexOutOfRange => obtain ⟨-, -, k, rfl, -⟩ := h; simp [canRaise]

/-- A register of one bit, with the polynomial `x` and the state 0. -/
def oneBit : State := State.reset.construct .fibonacci 2 1 0

/-- The same register with its state table. -/
def oneBitTable : State := oneBit.writeTable [0]

theorem oneBit_inv : StateInv oneBit :=
  stateInv_reset.construct .fibonacci rfl (by decide)

theorem oneBitTable_inv : StateInv oneBitTable :=
  oneBit_inv.writeTable rfl (stateTable_zero _ _ _)

/-- Every cross but CycleNotFound is reached from reset, from the one-bit register or from its table. -/
theorem exists_raises_of_mem_canRaise {i : Instr} {e : ErrorCode} (he : e ∈ canRaise i) (hne : e ≠ .cycleNotFound) :
    ∃ (i' : Instr) (s : State), i'.word = i.word ∧ StateInv s ∧ Raises i' s e := by
  by_cases hnc : e = .notConstructed
  · subst hnc
    have hi : isLoad i = false := by cases i <;> simp [canRaise, isLoad] at he ⊢
    exact ⟨i, State.reset, rfl, stateInv_reset, exec_of_not_valid rfl hi⟩
  cases i with
  | loadF p s0 =>
    obtain rfl | rfl : e = .invalidPolynomial ∨ e = .invalidState := by simpa [canRaise] using he
    · exact ⟨.loadF 0 0, State.reset, rfl, stateInv_reset, rfl⟩
    · exact ⟨.loadF 1 1, State.reset, rfl, stateInv_reset, rfl⟩
  | loadG p s0 =>
    obtain rfl | rfl : e = .invalidPolynomial ∨ e = .invalidState := by simpa [canRaise] using he
    · exact ⟨.loadG 0 0, State.reset, rfl, stateInv_reset, rfl⟩
    · exact ⟨.loadG 1 1, State.reset, rfl, stateInv_reset, rfl⟩
  | rdstate | rdorder | rdpoly | round | adv c => simp [canRaise, hnc] at he
  | rdbit idx =>
    obtain rfl : e = .indexOutOfRange := by simpa [canRaise, hnc] using he
    exact ⟨.rdbit 1, oneBit, rfl, oneBit_inv, rfl⟩
  | wrbit idx v =>
    obtain rfl | rfl : e = .indexOutOfRange ∨ e = .invalidBitValue := by simpa [canRaise, hnc] using he
    · exact ⟨.wrbit 1 0, oneBit, rfl, oneBit_inv, rfl⟩
    · exact ⟨.wrbit 0 2, oneBit, rfl, oneBit_inv, rfl⟩
  | table => simp [canRaise, hnc, hne] at he
  | tlen =>
    obtain rfl : e = .noTable := by simpa [canRaise, hnc] using he
    exact ⟨.tlen, oneBit, rfl, oneBit_inv, rfl⟩
  | tblrd k =>
    obtain rfl | rfl : e = .noTable ∨ e = .tableIndexOutOfRange := by simpa [canRaise, hnc] using he
    · exact ⟨.tblrd k, oneBit, rfl, oneBit_inv, rfl⟩
    · exact ⟨.tblrd 1, oneBitTable, rfl, oneBitTable_inv, rfl⟩

end Sys2Proof.Safety

namespace Sys2Proof

open Sys2Proof.Machine Sys2Proof.Safety

/-- Settles O17: TABLE raises the error where the engine finds no cycle, and in range it finds one. -/
theorem cycleNotFoundCause : Obligations.CycleNotFoundCause := by
  refine ⟨rfl, fun i s f hf => ?_, fun i s hinv h => ?_⟩
  · subst hf
    rw [← stateTable_eq_none_iff]
    refine ⟨Raises.cause, ?_⟩
    rintro ⟨rfl, hv, hnone⟩
    exact (raises_iff_failed .table s _).mpr (.inr ⟨hv, hnone, rfl⟩)
  · obtain ⟨-, hv, hnone⟩ := h.cause
    obtain ⟨l, hl⟩ := hinv.registers.exists_stateTable hv
    rw [hnone] at hl
    cases hl

/-- Settles O22: the row of a command lists the errors it has a cause for, and each cross is reached from one of three
states that meet the invariant. -/
theorem errorMatrix : Obligations.ErrorMatrix :=
  ⟨fun _ _ _ h => Cause.mem_canRaise h.cause, fun _ _ => exists_raises_of_mem_canRaise⟩

end Sys2Proof
end
